-- ==== Sys2Proof/Word.lean ====
section
/-! DEFINITION. The word types of the unit (spec/00_scope.md rules R8, R10, R13; spec/30_encoding.md rules R60, R61). -/

namespace Sys2Proof

/-- A 64-bit word: a cell, an operand, a response datum (R8, R10, R13). Bit 0 is the least significant bit. -/
abbrev Word := BitVec 64

/-- One byte of an external cell image (R43); the unit itself has no byte-addressed view of a cell. -/
abbrev Byte := BitVec 8

/-- The opcode field `cmd[135:128]` of a command word (R60). -/
abbrev Opcode := BitVec 8

/-- A command word `cmd[135:0]` (R60). -/
abbrev CommandWord := BitVec 136

/-- A response word `rsp[135:0]` (R61). -/
abbrev ResponseWord := BitVec 136

end Sys2Proof
end

