-- ==== Sys2Proof/Syntax.lean ====
section
/-! DEFINITION. The commands of the unit: one constructor per row of spec/opcode_table.json
(spec/30_encoding.md rules R60, R62, R66). -/

namespace Sys2Proof

/-- One command. Every command word has the two 64-bit operand fields `a` and `b` (R60), and every constructor
carries both, also where R62 marks an operand as ignored: that an ignored operand has no effect (R65) is then a
fact about the meanings, and no bit of a command word is lost by decoding. A reserved row of several opcodes also
carries the opcode it stands for. -/
inductive Instr where
  /-- `CFGA length, width`, opcode `0x01` (R151). -/
  | cfga (length width : Word)
  /-- `CFGP length, width`, opcode `0x02` (R152). -/
  | cfgp (length width : Word)
  /-- `GET index`, opcode `0x03` (R130). -/
  | get (index ignoredB : Word)
  /-- `SET index, value`, opcode `0x04` (R131). -/
  | set (index value : Word)
  /-- `LEN`, opcode `0x05` (R155). -/
  | len (ignoredA ignoredB : Word)
  /-- `PAD`, opcode `0x06` (R106). -/
  | pad (ignoredA ignoredB : Word)
  /-- `CAP`, opcode `0x07` (R105). -/
  | cap (ignoredA ignoredB : Word)
  /-- `LOC index`, opcode `0x08` (R104). -/
  | loc (index ignoredB : Word)
  /-- `RDC cell`, opcode `0x09` (R156). -/
  | rdc (cell ignoredB : Word)
  /-- The reserved opcode `0x00` (R66). -/
  | reserved00 (ignoredA ignoredB : Word)
  /-- The reserved opcodes `0x0A .. 0x0B` (R66). -/
  | reserved0A (op : Opcode) (ignoredA ignoredB : Word)
  /-- The reserved opcodes `0x0C .. 0x0F` (R66). -/
  | reserved0C (op : Opcode) (ignoredA ignoredB : Word)
  /-- The reserved opcodes `0x10 .. 0x1F` (R66). -/
  | reserved10 (op : Opcode) (ignoredA ignoredB : Word)
  /-- The reserved opcodes `0x20 .. 0x3F` (R66). -/
  | reserved20 (op : Opcode) (ignoredA ignoredB : Word)
  /-- The reserved opcodes `0x40 .. 0x7F` (R66). -/
  | reserved40 (op : Opcode) (ignoredA ignoredB : Word)
  /-- The reserved opcodes `0x80 .. 0xFF` (R66). -/
  | reserved80 (op : Opcode) (ignoredA ignoredB : Word)
  deriving DecidableEq, Repr

end Sys2Proof
end

