-- ==== Sys2Proof/WellFormed.lean ====
section
/-! DEFINITION. Which terms of `Instr` stand for a command word (spec/opcode_table.json, the rows' match and mask). -/

namespace Sys2Proof

/-- The opcode `op` lies in the row whose opcode byte has the given mask and match (R62). -/
def opcodeInRow (op mask pattern : Opcode) : Bool := op &&& mask == pattern

/-- The only check on a command: a reserved row carries an opcode of that row (R66). Operands are unrestricted:
every 64-bit value of `a` and `b` is an operand (R64), and which values a command accepts is for its meaning. -/
def Instr.wellFormed : Instr → Bool
  | .cfga _ _ | .cfgp _ _ | .get _ _ | .set _ _ | .len _ _ | .pad _ _ | .cap _ _ | .loc _ _ | .rdc _ _ => true
  | .reserved00 _ _ => true
  | .reserved0A op _ _ => opcodeInRow op 0xFE#8 0x0A#8
  | .reserved0C op _ _ => opcodeInRow op 0xFC#8 0x0C#8
  | .reserved10 op _ _ => opcodeInRow op 0xF0#8 0x10#8
  | .reserved20 op _ _ => opcodeInRow op 0xE0#8 0x20#8
  | .reserved40 op _ _ => opcodeInRow op 0xC0#8 0x40#8
  | .reserved80 op _ _ => opcodeInRow op 0x80#8 0x80#8

end Sys2Proof
end

