-- ==== Sys2Proof/Decode.lean ====
section
/-! DEFINITION. The command decoder and encoder (spec/30_encoding.md rules R60 to R67, spec/opcode_table.json). -/

namespace Sys2Proof

/-- `op = cmd[135:128]` (R60). -/
def opcodeField (w : CommandWord) : Opcode := w.extractLsb' 128 8

/-- `a = cmd[127:64]` (R60). -/
def operandA (w : CommandWord) : Word := w.extractLsb' 64 64

/-- `b = cmd[63:0]` (R60). -/
def operandB (w : CommandWord) : Word := w.extractLsb' 0 64

/-- The command word `op ‖ a ‖ b` (R60). -/
def commandWord (op : Opcode) (a b : Word) : CommandWord := op ++ a ++ b

/-- The sixteen rows of spec/opcode_table.json, each named by its opcode: the nine commands of R62 and the seven rows
of reserved opcodes of R66. -/
inductive OpcodeRow where
  | op01 | op02 | op03 | op04 | op05 | op06 | op07 | op08 | op09
  | op00 | op0Ato0B | op0Cto0F | op10to1F | op20to3F | op40to7F | op80toFF
  deriving DecidableEq, Repr

/-- The match and the mask of a row, as spec/opcode_table.json writes them: two 136-bit numbers. -/
def tableRow : OpcodeRow → CommandWord × CommandWord
  | .op01 => (0x0100000000000000000000000000000000#136, 0xFF00000000000000000000000000000000#136)
  | .op02 => (0x0200000000000000000000000000000000#136, 0xFF00000000000000000000000000000000#136)
  | .op03 => (0x0300000000000000000000000000000000#136, 0xFF00000000000000000000000000000000#136)
  | .op04 => (0x0400000000000000000000000000000000#136, 0xFF00000000000000000000000000000000#136)
  | .op05 => (0x0500000000000000000000000000000000#136, 0xFF00000000000000000000000000000000#136)
  | .op06 => (0x0600000000000000000000000000000000#136, 0xFF00000000000000000000000000000000#136)
  | .op07 => (0x0700000000000000000000000000000000#136, 0xFF00000000000000000000000000000000#136)
  | .op08 => (0x0800000000000000000000000000000000#136, 0xFF00000000000000000000000000000000#136)
  | .op09 => (0x0900000000000000000000000000000000#136, 0xFF00000000000000000000000000000000#136)
  | .op00 => (0x0000000000000000000000000000000000#136, 0xFF00000000000000000000000000000000#136)
  | .op0Ato0B => (0x0A00000000000000000000000000000000#136, 0xFE00000000000000000000000000000000#136)
  | .op0Cto0F => (0x0C00000000000000000000000000000000#136, 0xFC00000000000000000000000000000000#136)
  | .op10to1F => (0x1000000000000000000000000000000000#136, 0xF000000000000000000000000000000000#136)
  | .op20to3F => (0x2000000000000000000000000000000000#136, 0xE000000000000000000000000000000000#136)
  | .op40to7F => (0x4000000000000000000000000000000000#136, 0xC000000000000000000000000000000000#136)
  | .op80toFF => (0x8000000000000000000000000000000000#136, 0x8000000000000000000000000000000000#136)

/-- The row of an opcode (R62). It is total, as R63 asks: the row of mask `0x80` and match `0x80` is what remains when
no other row matches. -/
def rowOfOpcode (op : Opcode) : OpcodeRow :=
  if op = 0x01#8 then .op01
  else if op = 0x02#8 then .op02
  else if op = 0x03#8 then .op03
  else if op = 0x04#8 then .op04
  else if op = 0x05#8 then .op05
  else if op = 0x06#8 then .op06
  else if op = 0x07#8 then .op07
  else if op = 0x08#8 then .op08
  else if op = 0x09#8 then .op09
  else if op = 0x00#8 then .op00
  else if opcodeInRow op 0xFE#8 0x0A#8 then .op0Ato0B
  else if opcodeInRow op 0xFC#8 0x0C#8 then .op0Cto0F
  else if opcodeInRow op 0xF0#8 0x10#8 then .op10to1F
  else if opcodeInRow op 0xE0#8 0x20#8 then .op20to3F
  else if opcodeInRow op 0xC0#8 0x40#8 then .op40to7F
  else .op80toFF

/-- The command of a row, from the three fields of a word (R60, R62). -/
def commandOfRow (row : OpcodeRow) (op : Opcode) (a b : Word) : Instr :=
  match row with
  | .op01 => .cfga a b
  | .op02 => .cfgp a b
  | .op03 => .get a b
  | .op04 => .set a b
  | .op05 => .len a b
  | .op06 => .pad a b
  | .op07 => .cap a b
  | .op08 => .loc a b
  | .op09 => .rdc a b
  | .op00 => .reserved00 a b
  | .op0Ato0B => .reserved0A op a b
  | .op0Cto0F => .reserved0C op a b
  | .op10to1F => .reserved10 op a b
  | .op20to3F => .reserved20 op a b
  | .op40to7F => .reserved40 op a b
  | .op80toFF => .reserved80 op a b

/-- The decoder: every one of the `2^136` command words is a command or a reserved command (R62, R63, R67). A
reserved word is rejected by its row's name, a `reserved..` constructor, whose meaning raises `IllegalCommand` (R66). -/
def decode (w : CommandWord) : Instr :=
  commandOfRow (rowOfOpcode (opcodeField w)) (opcodeField w) (operandA w) (operandB w)

/-- The row of a command (R62, R66). -/
def rowOf : Instr → OpcodeRow
  | .cfga _ _ => .op01
  | .cfgp _ _ => .op02
  | .get _ _ => .op03
  | .set _ _ => .op04
  | .len _ _ => .op05
  | .pad _ _ => .op06
  | .cap _ _ => .op07
  | .loc _ _ => .op08
  | .rdc _ _ => .op09
  | .reserved00 _ _ => .op00
  | .reserved0A _ _ _ => .op0Ato0B
  | .reserved0C _ _ _ => .op0Cto0F
  | .reserved10 _ _ _ => .op10to1F
  | .reserved20 _ _ _ => .op20to3F
  | .reserved40 _ _ _ => .op40to7F
  | .reserved80 _ _ _ => .op80toFF

/-- The opcode of a command (R62, R66). -/
def opcodeOf : Instr → Opcode
  | .cfga _ _ => 0x01#8
  | .cfgp _ _ => 0x02#8
  | .get _ _ => 0x03#8
  | .set _ _ => 0x04#8
  | .len _ _ => 0x05#8
  | .pad _ _ => 0x06#8
  | .cap _ _ => 0x07#8
  | .loc _ _ => 0x08#8
  | .rdc _ _ => 0x09#8
  | .reserved00 _ _ => 0x00#8
  | .reserved0A op _ _ | .reserved0C op _ _ | .reserved10 op _ _ | .reserved20 op _ _ | .reserved40 op _ _
  | .reserved80 op _ _ => op

/-- The two operand fields `a` and `b` of a command (R60). -/
def operandsOf : Instr → Word × Word
  | .cfga a b | .cfgp a b | .get a b | .set a b | .len a b | .pad a b | .cap a b | .loc a b | .rdc a b
  | .reserved00 a b | .reserved0A _ a b | .reserved0C _ a b | .reserved10 _ a b | .reserved20 _ a b
  | .reserved40 _ a b | .reserved80 _ a b => (a, b)

/-- The encoder: the one command word of a well-formed command (R60, R62). -/
def encode (i : Instr) : CommandWord := commandWord (opcodeOf i) (operandsOf i).1 (operandsOf i).2

/-- The command that the decoder reads from the bits `w`, numbered as spec/opcode_table.json numbers them, with
every bit at or above `nbits` zero. There is one command length, 136 bits (R67): more bits are no command. -/
def decodeTableWord (nbits w : Nat) : Option Instr :=
  if nbits ≤ 136 then some (decode (BitVec.ofNat 136 (w % 2 ^ nbits))) else none

end Sys2Proof
end

