-- ==== Sys2Proof/Config.lean ====
section
/-! DEFINITION. The parameters of the unit (spec/00_scope.md rules R8, R9). `WORD_BITS` is the constant 64 (R8) and
stands as the literal 64 wherever a rule writes it. `HANDSHAKE` is not modelled: no rule depends on it (R73). -/

namespace Sys2Proof.Config

/-- The least legal `MAX_CELLS` (R9). -/
def minMaxCells : Nat := 1

/-- The greatest legal `MAX_CELLS` (R9). -/
def maxMaxCells : Nat := 2 ^ 57

/-- DESIGN CHOICE (notes/assumptions/2.md), unsafe: the value of the OPEN parameter `MAX_CELLS` (R9) in `State.reset`.
The spec gives none. 1024 is what its vectors V7 and P3 assume and covers what every other vector needs. `MAX_CELLS`
itself is a field of the state, so every statement about all states is about every value of it. -/
def resetMaxCells : Nat := 1024

end Sys2Proof.Config
end

