-- ==== Sys2Proof/Machine/State.lean ====
section
/-! DEFINITION. The state of the unit, the reasons a step can stop, and the state after reset
(spec/10_state.md, spec/70_reset_and_hazards.md). -/

namespace Sys2Proof.Machine

/-- The layout policy of the buffer (R25). -/
inductive Layout where
  /-- An element never crosses a cell boundary. -/
  | aligned
  /-- Elements form one continuous bitstream. -/
  | packed
  deriving DecidableEq, Repr

/-- The cells of the buffer (R29), sparse: `(cell index, word)` pairs with rising indices, and no pair for a cell
that holds 0, which is what construction leaves in every cell (R150). The addressable unit is one whole 64-bit cell
and there is no byte address (R40), so an entry holds a word: DEDUCED (notes/assumptions/1.md), safe. -/
abbrev Memory := List (Nat × Word)

/-- What the host does at the unit's ports between two steps (R192, R199): it presents a command word, it resets the
unit, or it does both before the command is answered. -/
inductive HostMove where
  /-- Present one command word at the free command port (R73). -/
  | command (w : CommandWord)
  /-- Reset the unit between commands (R190, R199). -/
  | reset
  /-- Present one command word and reset the unit, or take away its power, while the command is executed (R192). -/
  | commandCutShort (w : CommandWord)
  deriving DecidableEq, Repr

/-- The unit and its two ports. The first five fields are the complete architectural state (R20). The last three are
the model's own: `maxCells` is the argument of the model that R9 asks for, and `pending` and `responses` are the
host's side of a run (R198). -/
structure State where
  /-- `configured`: a buffer exists (R24). -/
  configured : Bool
  /-- `layout` (R25). -/
  layout : Layout
  /-- `width`: the bit-width of every element, 1 to 64 while configured (R26). -/
  width : Nat
  /-- `length`: the number of elements, a natural number below `2^64` (R27). -/
  length : Word
  /-- `cells` (R29): the words of cells `0 .. capacity_cells - 1`. -/
  cells : Memory
  /-- The model's own: `MAX_CELLS`, the OPEN parameter that the model takes as an argument (R9); no step writes it. -/
  maxCells : Nat
  /-- The model's own: the host's moves still to come, in order (R198). -/
  pending : List HostMove
  /-- The model's own: the response words produced so far, in order (R198). -/
  responses : List ResponseWord
  deriving DecidableEq, Repr

/-- Why the machine stops. No command of a well-formed state raises one (R33, R100). -/
inductive Fault where
  /-- Raised by `cellRead` and `cellWrite` for a cell index at or above `capacity_cells`, a cell that does not exist
  (R40, R41). Safe: R100 says that no rule makes such an access. -/
  | cellOutsideBuffer (cell : Nat)
  deriving DecidableEq, Repr

/-- Why a command has no meaning in the model. -/
inductive Refusal where
  /-- Raised by an arm of `exec` whose command has no meaning yet; no arm does. Safe: a run stops there. -/
  | notModelled (mnemonic : String)
  deriving DecidableEq, Repr

/-- The unit right after reset (R35, R190): `configured` is 0. DESIGN CHOICE (notes/assumptions/3.md), unsafe: the
spec leaves `layout`, `width`, `length` and `cells` unspecified, and unobservable; here they are `aligned`, 0, 0 and
no cell. DESIGN CHOICE (notes/assumptions/2.md), unsafe: `maxCells`. No host move is pending and no response stands. -/
def State.reset : State where
  configured := false
  layout := .aligned
  width := 0
  length := 0#64
  cells := []
  maxCells := Config.resetMaxCells
  pending := []
  responses := []

end Sys2Proof.Machine
end

