-- ==== Sys2Proof/Machine/Flags.lean ====
section
/-! DEFINITION. The one flag of the unit, `configured` (spec/10_state.md rules R23, R24), and the status codes of
responses (spec/60_exceptions.md rules R170 to R178). There are no condition codes. -/

namespace Sys2Proof.Machine

/-- The seven errors (R170). -/
inductive CommandError where
  /-- CFGA, CFGP: the width is 0 or above 64 (R171). -/
  | invalidWidth
  /-- GET, SET, LOC: the index is not below `length` (R172). -/
  | indexOutOfBounds
  /-- SET: the value is not below `2^width` (R173). -/
  | valueTooWide
  /-- CFGA, CFGP: the buffer needs more than `MAX_CELLS` cells (R174). -/
  | capacityExceeded
  /-- A reserved opcode (R175). -/
  | illegalCommand
  /-- Any command but CFGA and CFGP while `configured = 0` (R176). -/
  | notConfigured
  /-- RDC: the cell index is not below `capacity_cells` (R177). -/
  | cellOutOfRange
  deriving DecidableEq, Repr

/-- The status code `OK` (R170). -/
def okCode : BitVec 8 := 0x00#8

/-- The status code of an error (R170). -/
def errorCode : CommandError → BitVec 8
  | .invalidWidth => 0x01#8
  | .indexOutOfBounds => 0x02#8
  | .valueTooWide => 0x03#8
  | .capacityExceeded => 0x04#8
  | .illegalCommand => 0x05#8
  | .notConfigured => 0x06#8
  | .cellOutOfRange => 0x07#8

end Sys2Proof.Machine
end

