-- ==== Sys2Proof/Machine/Operands.lean ====
section
/-! DEFINITION. Operand forms and effective addresses: width validation (spec/40_bitwidth.md) and the cell-layout
address / offset / span computer (spec/41_cell_layout.md). Operands are plain unsigned numbers (R64) and all
arithmetic is exact on `Nat` (R12). -/

namespace Sys2Proof.Machine

/-- `ceil_div(a, b) = (a + b - 1) div b` (R12). -/
def ceilDiv (a b : Nat) : Nat := (a + b - 1) / b

/-- `WidthValid(w)` (R80). -/
def widthValid (w : Nat) : Bool := decide (1 ≤ w) && decide (w ≤ 64)

/-- `ElementsPerCell(w)` (R91). -/
def elementsPerCell (w : Nat) : Nat := 64 / w

/-- `PaddingPerCell(w)` (R97). -/
def paddingPerCell (w : Nat) : Nat := 64 - elementsPerCell w * w

/-- `CapacityCells(layout, L, w)` (R95, R96). -/
def capacityCells (lay : Layout) (L w : Nat) : Nat :=
  match lay with
  | .aligned => ceilDiv L (elementsPerCell w)
  | .packed => ceilDiv (L * w) 64

/-- `PaddingBits(layout, L, w)` (R97, R98). -/
def paddingBits (lay : Layout) (L w : Nat) : Nat :=
  match lay with
  | .aligned => paddingPerCell w * capacityCells .aligned L w
  | .packed => 0

/-- `capacity_cells`, derived from the registers (R28). -/
def capacityOf (s : State) : Nat := capacityCells s.layout s.length.toNat s.width

/-- Where an element lies (R90). -/
inductive Location where
  /-- The element lies in one cell. -/
  | single (cell bitOffset : Nat)
  /-- The element lies in two adjacent cells. -/
  | spanning (lowCell lowBits highCell highBits : Nat)
  deriving DecidableEq, Repr

/-- `LocateAligned(i, w)` (R92). -/
def locateAligned (i w : Nat) : Location :=
  .single (i / elementsPerCell w) (i % elementsPerCell w * w)

/-- `LocatePacked(i, w)` (R93). -/
def locatePacked (i w : Nat) : Location :=
  let cell := i * w / 64
  let off := i * w % 64
  if off + w ≤ 64 then .single cell off
  else .spanning cell (64 - off) (cell + 1) (w - (64 - off))

/-- `Locate(layout, i, w)` (R94). -/
def locate (lay : Layout) (i w : Nat) : Location :=
  match lay with
  | .aligned => locateAligned i w
  | .packed => locatePacked i w

/-- The `d0` of LOC: `cell` of a `Single`, `low_cell` of a `Spanning` (R68, R104). -/
def locationCell : Location → Word
  | .single cell _ => BitVec.ofNat 64 cell
  | .spanning lowCell _ _ _ => BitVec.ofNat 64 lowCell

/-- The `d1` of LOC, for an element of `w` bits (R68, R104). -/
def locationWord (w : Nat) : Location → Word
  | .single _ bitOffset => BitVec.ofNat 64 (bitOffset + 0 * 2 ^ 6 + w * 2 ^ 8 + 0 * 2 ^ 16)
  | .spanning _ lowBits _ highBits => BitVec.ofNat 64 ((64 - lowBits) + 1 * 2 ^ 6 + lowBits * 2 ^ 8 + highBits * 2 ^ 16)

/-- The index operand names no element: `a >= length` (R172). -/
abbrev IndexOutside (s : State) (a : Word) : Prop := s.length.toNat ≤ a.toNat

/-- The value operand does not fit: `b >= 2^width` (R173). -/
abbrev ValueTooWideFor (s : State) (b : Word) : Prop := 2 ^ s.width ≤ b.toNat

/-- The cell operand names no cell of the buffer: `a >= capacity_cells` (R177). -/
abbrev CellOutside (s : State) (a : Word) : Prop := capacityOf s ≤ a.toNat

end Sys2Proof.Machine
end

