-- ==== Sys2Proof/Machine/Ops.lean ====
section
/-! DEFINITION. The shared operations: cell memory, the masked-word primitives (spec/42_masked_word.md), the two ways
a command ends (R16), construction (R150) and the moves of the host that are no command. -/

namespace Sys2Proof.Machine

/-! ### Cells -/

/-- The canonical form from index `lo` on: indices strictly rising, no entry equal to 0. -/
def Memory.wfFrom : Nat → Memory → Bool
  | _, [] => true
  | lo, (c, v) :: rest => decide (lo ≤ c) && (v != 0#64) && Memory.wfFrom (c + 1) rest

/-- The canonical form of the cell array, so that equal memories are equal data. -/
def Memory.wf (m : Memory) : Bool := Memory.wfFrom 0 m

/-- What cell `c` holds; a cell with no entry holds 0, as construction leaves it (R29, R150). -/
def Memory.read : Memory → Nat → Word
  | [], _ => 0#64
  | (a, v) :: rest, c => if c = a then v else Memory.read rest c

/-- Store `v` in cell `c`, keeping the canonical form. -/
def Memory.write : Memory → Nat → Word → Memory
  | [], c, v => if v = 0#64 then [] else [(c, v)]
  | (a, x) :: rest, c, v =>
    if c < a then (if v = 0#64 then (a, x) :: rest else (c, v) :: (a, x) :: rest)
    else if c = a then (if v = 0#64 then rest else (c, v) :: rest)
    else (a, x) :: Memory.write rest c v

/-- `CellRead(c)` (R15); an index at or above `capacity_cells` is no cell (R40, R41). -/
def cellRead (s : State) (c : Nat) : Except Fault Word :=
  if c < capacityOf s then .ok (Memory.read s.cells c) else .error (.cellOutsideBuffer c)

/-- `CellWrite(c, v)` (R15); an index at or above `capacity_cells` is no cell (R40, R41). -/
def cellWrite (s : State) (c : Nat) (v : Word) : Except Fault State :=
  if c < capacityOf s then .ok { s with cells := Memory.write s.cells c v } else .error (.cellOutsideBuffer c)

/-! ### Masked words -/

/-- `Mask(n) = 2^n - 1` (R110). -/
def mask (n : Nat) : Word := BitVec.ofNat 64 (2 ^ n - 1)

/-- `FieldMask(off, n)` (R111). -/
def fieldMask (off n : Nat) : Word := mask n <<< off

/-- The `n`-bit field of a word that starts at bit `off` (R112). -/
def extractField (x : Word) (off n : Nat) : Word := (x >>> off) &&& mask n

/-- The word with its `n`-bit field at bit `off` replaced by `v` (R113). -/
def replaceField (old : Word) (off n : Nat) (v : Word) : Word := (old &&& ~~~(fieldMask off n)) ||| (v <<< off)

/-- `MaskedRead(c, off, n)` (R112). -/
def maskedRead (s : State) (c off n : Nat) : Except Fault Word := do
  let old ← cellRead s c
  return extractField old off n

/-- `MaskedWrite(c, off, n, v)` (R113). -/
def maskedWrite (s : State) (c off n : Nat) (v : Word) : Except Fault State := do
  let old ← cellRead s c
  cellWrite s c (replaceField old off n v)

/-- `SplitValue(v, low_bits)`: the low fragment and the carry (R114). -/
def splitValue (v : Word) (lowBits : Nat) : Word × Word := (v &&& mask lowBits, v >>> lowBits)

/-- `ComposeValue(lo, hi, low_bits)` (R115). -/
def composeValue (lo hi : Word) (lowBits : Nat) : Word := (hi <<< lowBits) ||| lo

/-- `ExtractAt(loc, w)` (R116). -/
def extractAt (s : State) (l : Location) (w : Nat) : Except Fault Word :=
  match l with
  | .single cell bitOffset => maskedRead s cell bitOffset w
  | .spanning lowCell lowBits highCell highBits => do
    let lo ← maskedRead s lowCell (64 - lowBits) lowBits
    let hi ← maskedRead s highCell 0 highBits
    return composeValue lo hi lowBits

/-- `InsertAt(loc, w, v)` (R117). -/
def insertAt (s : State) (l : Location) (w : Nat) (v : Word) : Except Fault State :=
  match l with
  | .single cell bitOffset => maskedWrite s cell bitOffset w v
  | .spanning lowCell lowBits highCell highBits => do
    let s' ← maskedWrite s lowCell (64 - lowBits) lowBits (splitValue v lowBits).1
    maskedWrite s' highCell 0 highBits (splitValue v lowBits).2

/-! ### How a command ends -/

/-- The response word `status ‖ d0 ‖ d1` (R61). -/
def responseWord (status : BitVec 8) (d0 d1 : Word) : ResponseWord := status ++ d0 ++ d1

/-- Put one response word on the response port (R61). -/
def appendResponse (s : State) (r : ResponseWord) : State := { s with responses := s.responses ++ [r] }

/-- `respond OK(d0, d1)` (R16). -/
def respondOk (d0 d1 : Word) (s : State) : Host.Outcome State Fault Refusal :=
  .next (appendResponse s (responseWord okCode d0 d1))

/-- `raise <Error>` (R16, R178, R181): the unit's exception entry. The response is `status ‖ 0 ‖ 0`; nothing is saved,
no handler runs and no state changes. There is no return from it: the unit is ready for the next command (R182). -/
def raiseError (e : CommandError) (s : State) : Host.Outcome State Fault Refusal :=
  .next (appendResponse s (responseWord (errorCode e) 0#64 0#64))

/-- The rest of a command that needs a buffer; without one it raises `NotConfigured` (R24, R176). -/
def whenConfigured (s : State) (k : Host.Outcome State Fault Refusal) : Host.Outcome State Fault Refusal :=
  if s.configured then k else raiseError .notConfigured s

/-! ### Construction -/

/-- The state with a fresh buffer: the four registers written and every cell 0 (R150). -/
def construct (lay : Layout) (L : Word) (w : Nat) (s : State) : State :=
  { s with configured := true, layout := lay, width := w, length := L, cells := [] }

/-- `Configure(lay, L, w)` (R150). -/
def configure (lay : Layout) (L w : Word) (s : State) : Host.Outcome State Fault Refusal :=
  if widthValid w.toNat = false then raiseError .invalidWidth s
  else if s.maxCells < capacityCells lay L.toNat w.toNat then raiseError .capacityExceeded s
  else respondOk 0#64 0#64 (construct lay L w.toNat s)

/-! ### The command port -/

/-- The host's first pending move is taken from the port (R22, R73). -/
def acceptMove (s : State) : State := { s with pending := s.pending.tail }

/-- Nothing is presented: the unit waits and nothing changes (R198). DESIGN CHOICE (notes/assumptions/4.md), safe. -/
def idle (s : State) : Host.Outcome State Fault Refusal := .next s

/-- Reset (R190): `configured <- 0`, and no response. DESIGN CHOICE (notes/assumptions/3.md), unsafe: the registers
that reset leaves unspecified, and unobservable, take their values in `State.reset`, so that the unit has the single
reset state R35 asks for. -/
def resetUnit (s : State) : Host.Outcome State Fault Refusal :=
  .next { s with
    configured := false
    layout := State.reset.layout
    width := State.reset.width
    length := State.reset.length
    cells := State.reset.cells }

/-- Reset, or loss of power, while a command is executed (R192): the command is not answered and the unit is
unconfigured, whatever the command had written, which nothing can observe (R190). -/
def cutShort (_w : CommandWord) (s : State) : Host.Outcome State Fault Refusal := resetUnit s

end Sys2Proof.Machine
end

