-- ==== Sys2Proof/Machine/CellLayout.lean ====
section
/-! DEFINITION. The commands of the cell-layout computer: LOC, CAP and PAD (spec/41_cell_layout.md). -/

namespace Sys2Proof.Machine

/-- LOC (R104). -/
def execLoc (a _b : Word) (s : State) : Host.Outcome State Fault Refusal :=
  whenConfigured s <|
    if IndexOutside s a then raiseError .indexOutOfBounds s
    else
      respondOk (locationCell (locate s.layout a.toNat s.width))
        (locationWord s.width (locate s.layout a.toNat s.width)) s

/-- CAP (R105). -/
def execCap (_a _b : Word) (s : State) : Host.Outcome State Fault Refusal :=
  whenConfigured s <| respondOk (BitVec.ofNat 64 (capacityOf s)) 0#64 s

/-- PAD (R106). -/
def execPad (_a _b : Word) (s : State) : Host.Outcome State Fault Refusal :=
  whenConfigured s <| respondOk (BitVec.ofNat 64 (paddingBits s.layout s.length.toNat s.width)) 0#64 s

end Sys2Proof.Machine
end

