-- ==== Sys2Proof/Machine/ConfigQuery.lean ====
section
/-! DEFINITION. Configuration and queries: CFGA, CFGP, LEN and RDC (spec/44_config_query.md). -/

namespace Sys2Proof.Machine

/-- CFGA (R151). -/
def execCfga (a b : Word) (s : State) : Host.Outcome State Fault Refusal := configure .aligned a b s

/-- CFGP (R152). -/
def execCfgp (a b : Word) (s : State) : Host.Outcome State Fault Refusal := configure .packed a b s

/-- LEN (R155). -/
def execLen (_a _b : Word) (s : State) : Host.Outcome State Fault Refusal :=
  whenConfigured s <| respondOk s.length 0#64 s

/-- RDC (R156). -/
def execRdc (a _b : Word) (s : State) : Host.Outcome State Fault Refusal :=
  whenConfigured s <|
    if CellOutside s a then raiseError .cellOutOfRange s
    else
      match cellRead s a.toNat with
      | .ok v => respondOk v 0#64 s
      | .error f => .fault f

end Sys2Proof.Machine
end

