-- ==== Sys2Proof/Machine/ExtractInsert.lean ====
section
/-! DEFINITION. Bit-extract and bit-insert: GET and SET (spec/43_extract_insert.md). -/

namespace Sys2Proof.Machine

/-- GET (R130). -/
def execGet (a _b : Word) (s : State) : Host.Outcome State Fault Refusal :=
  whenConfigured s <|
    if IndexOutside s a then raiseError .indexOutOfBounds s
    else
      match extractAt s (locate s.layout a.toNat s.width) s.width with
      | .ok v => respondOk v 0#64 s
      | .error f => .fault f

/-- SET (R131). -/
def execSet (a b : Word) (s : State) : Host.Outcome State Fault Refusal :=
  whenConfigured s <|
    if IndexOutside s a then raiseError .indexOutOfBounds s
    else if ValueTooWideFor s b then raiseError .valueTooWide s
    else
      match insertAt s (locate s.layout a.toNat s.width) s.width b with
      | .ok t => respondOk 0#64 0#64 t
      | .error f => .fault f

end Sys2Proof.Machine
end

