-- ==== Sys2Proof/Machine/Reserved.lean ====
section
/-! DEFINITION. The seven reserved rows: each raises `IllegalCommand`, in any state and before any other check
(spec/30_encoding.md rule R66, spec/60_exceptions.md rule R175). -/

namespace Sys2Proof.Machine

/-- Opcode `0x00` (R66). -/
def execReserved00 (_a _b : Word) (s : State) : Host.Outcome State Fault Refusal := raiseError .illegalCommand s

/-- Opcodes `0x0A .. 0x0B` (R66). -/
def execReserved0A (_op : Opcode) (_a _b : Word) (s : State) : Host.Outcome State Fault Refusal :=
  raiseError .illegalCommand s

/-- Opcodes `0x0C .. 0x0F` (R66). -/
def execReserved0C (_op : Opcode) (_a _b : Word) (s : State) : Host.Outcome State Fault Refusal :=
  raiseError .illegalCommand s

/-- Opcodes `0x10 .. 0x1F` (R66). -/
def execReserved10 (_op : Opcode) (_a _b : Word) (s : State) : Host.Outcome State Fault Refusal :=
  raiseError .illegalCommand s

/-- Opcodes `0x20 .. 0x3F` (R66). -/
def execReserved20 (_op : Opcode) (_a _b : Word) (s : State) : Host.Outcome State Fault Refusal :=
  raiseError .illegalCommand s

/-- Opcodes `0x40 .. 0x7F` (R66). -/
def execReserved40 (_op : Opcode) (_a _b : Word) (s : State) : Host.Outcome State Fault Refusal :=
  raiseError .illegalCommand s

/-- Opcodes `0x80 .. 0xFF` (R66). -/
def execReserved80 (_op : Opcode) (_a _b : Word) (s : State) : Host.Outcome State Fault Refusal :=
  raiseError .illegalCommand s

end Sys2Proof.Machine
end

