-- ==== Sys2Proof/Machine/Dispatch.lean ====
section
/-! DEFINITION. One arm per command (spec/30_encoding.md rule R62). -/

namespace Sys2Proof.Machine

def exec (i : Instr) (s : State) : Host.Outcome State Fault Refusal :=
  match i with
  | .cfga a b => Sys2Proof.Machine.execCfga a b s
  | .cfgp a b => Sys2Proof.Machine.execCfgp a b s
  | .get a b => Sys2Proof.Machine.execGet a b s
  | .set a b => Sys2Proof.Machine.execSet a b s
  | .len a b => Sys2Proof.Machine.execLen a b s
  | .pad a b => Sys2Proof.Machine.execPad a b s
  | .cap a b => Sys2Proof.Machine.execCap a b s
  | .loc a b => Sys2Proof.Machine.execLoc a b s
  | .rdc a b => Sys2Proof.Machine.execRdc a b s
  | .reserved00 a b => Sys2Proof.Machine.execReserved00 a b s
  | .reserved0A op a b => Sys2Proof.Machine.execReserved0A op a b s
  | .reserved0C op a b => Sys2Proof.Machine.execReserved0C op a b s
  | .reserved10 op a b => Sys2Proof.Machine.execReserved10 op a b s
  | .reserved20 op a b => Sys2Proof.Machine.execReserved20 op a b s
  | .reserved40 op a b => Sys2Proof.Machine.execReserved40 op a b s
  | .reserved80 op a b => Sys2Proof.Machine.execReserved80 op a b s

end Sys2Proof.Machine
end

