-- ==== Sys2Proof/Machine/Step.lean ====
section
/-! DEFINITION. One step of the machine: one move of the host, taken whole (spec/10_state.md rule R22,
spec/70_reset_and_hazards.md rules R198, R199). -/

namespace Sys2Proof.Machine

/-- One step. A presented command word is decoded and executed, and its response appended, before the next move is
looked at (R22, R47, R63, R73); a reset takes effect between commands (R190, R199), or cuts one command short (R192);
with no move pending the unit waits. -/
def step (s : State) : Host.Outcome State Fault Refusal :=
  match s.pending with
  | [] => idle s
  | .reset :: _ => resetUnit (acceptMove s)
  | .commandCutShort w :: _ => cutShort w (acceptMove s)
  | .command w :: _ => exec (decode w) (acceptMove s)

/-- `s` with the command whose bits are `w`, numbered as spec/opcode_table.json numbers them and zero at and above
`nbits`, presented at the command port before every move still pending. -/
def State.withFetchWord (s : State) (nbits w : Nat) : State :=
  { s with pending := .command (BitVec.ofNat 136 (w % 2 ^ nbits)) :: s.pending }

end Sys2Proof.Machine
end

