-- ==== Sys2Proof/Machine/Assembler.lean ====
section
/-! DEFINITION. The textual form of a command (spec/30_encoding.md rule R70) and the calls of the original software
written as commands (rule R71). Neither is hardware: no step uses this file. -/

namespace Sys2Proof.Machine

/-- The value of one hexadecimal digit, in either case. -/
def digitValue (c : Char) : Option Nat :=
  let n := c.toNat
  if 48 ≤ n ∧ n ≤ 57 then some (n - 48)
  else if 65 ≤ n ∧ n ≤ 70 then some (n - 55)
  else if 97 ≤ n ∧ n ≤ 102 then some (n - 87)
  else none

/-- The digits of a number in the given base, after the value read so far; `_` is a visual separator (R12). -/
def digitsValue (base : Nat) : Nat → List Char → Option Nat
  | acc, [] => some acc
  | acc, c :: cs =>
    if c = '_' then digitsValue base acc cs
    else
      match digitValue c with
      | some d => if d < base then digitsValue base (acc * base + d) cs else none
      | none => none

/-- A number, decimal or `0x` hexadecimal (R70), that a 64-bit operand holds (R64). R12 makes an underscore inside a
number a visual separator. DESIGN CHOICE (notes/assumptions/9.md), unsafe for claims about text only: where the
underscore separates no two digits the spec is silent; here it is skipped too, after the first digit of a decimal number,
after `0x`, doubled and at the end, while a number needs a digit, so that `0x_`, `0x` and `_5` are none; hexadecimal
digits may be of either case, the prefix is `0x` only; a number of `2^64` or more is refused. -/
def assembleNumber (cs : List Char) : Option Word :=
  let value :=
    match cs with
    | '0' :: 'x' :: ds => if ds.all (fun c => c == '_') then none else digitsValue 16 0 ds
    | d :: ds => if d = '_' then none else digitsValue 10 0 (d :: ds)
    | [] => none
  match value with
  | some n => if n < 2 ^ 64 then some (BitVec.ofNat 64 n) else none
  | none => none

/-- The text without its blanks at both ends. DESIGN CHOICE (notes/assumptions/9.md), unsafe for claims about text
only: a blank is a space or a tab. -/
def trimBlanks (cs : List Char) : List Char :=
  let isBlank := fun c => c == ' ' || c == '\t'
  ((cs.dropWhile isBlank).reverse.dropWhile isBlank).reverse

/-- The operands of a line, separated by a comma (R70). DESIGN CHOICE (notes/assumptions/9.md), unsafe for claims about
text only: blanks may stand around each. -/
def assembleOperands (cs : List Char) : Option (List Word) :=
  match trimBlanks cs with
  | [] => some []
  | c :: rest => ((c :: rest).splitOn ',').mapM fun field => assembleNumber (trimBlanks field)

/-- The nine forms (R70): an ignored operand is not written and assembles to 0. -/
def assembleForm : List Char → List Word → Option Instr
  | ['C', 'F', 'G', 'A'], [length, width] => some (.cfga length width)
  | ['C', 'F', 'G', 'P'], [length, width] => some (.cfgp length width)
  | ['G', 'E', 'T'], [index] => some (.get index 0#64)
  | ['S', 'E', 'T'], [index, value] => some (.set index value)
  | ['L', 'E', 'N'], [] => some (.len 0#64 0#64)
  | ['P', 'A', 'D'], [] => some (.pad 0#64 0#64)
  | ['C', 'A', 'P'], [] => some (.cap 0#64 0#64)
  | ['L', 'O', 'C'], [index] => some (.loc index 0#64)
  | ['R', 'D', 'C'], [cell] => some (.rdc cell 0#64)
  | _, _ => none

/-- One line of text: at most one command, and `;` starts a comment (R70). DESIGN CHOICE (notes/assumptions/9.md),
unsafe for claims about text only: a line of blanks or of a comment alone stands for no command, and a blank must part
the mnemonic from its operands. -/
def assembleLine (line : List Char) : Option (List Instr) :=
  match trimBlanks (line.takeWhile fun c => c != ';') with
  | [] => some []
  | c :: cs =>
    let text := c :: cs
    let isBlank := fun c => c == ' ' || c == '\t'
    match assembleOperands (text.dropWhile fun c => !isBlank c) with
    | some operands => (assembleForm (text.takeWhile fun c => !isBlank c) operands).map fun i => [i]
    | none => none

/-- A text, one command a line (R70), as the command words it stands for. DESIGN CHOICE (notes/assumptions/9.md),
unsafe for claims about text only: `'\n'` and nothing else ends a line, so that a carriage return is part of its line, is no
blank and makes a line refused unless it stands in a comment; a line that is refused makes the whole text stand for
nothing. -/
def assemble (text : List Char) : Option (List CommandWord) :=
  ((text.splitOn '\n').mapM assembleLine).map fun lines => lines.flatten.map encode

/-- A call of the original software interface (R71). -/
inductive ApiCall where
  /-- `BitWidth::new(w)` -/
  | bitWidthNew (w : Word)
  /-- `PackedBuffer::new(L, w)` with the Aligned layout -/
  | newAligned (length width : Word)
  /-- `PackedBuffer::new(L, w)` with the Packed layout -/
  | newPacked (length width : Word)
  /-- `buf.get(i)` -/
  | get (index : Word)
  /-- `buf.set(i, v)` -/
  | set (index value : Word)
  /-- `buf.len()` -/
  | len
  /-- `buf.get_padding_bit_count()` -/
  | getPaddingBitCount
  /-- `layout.locate(i, width)` -/
  | locate (index : Word)
  /-- `capacity_cells_for(...)` -/
  | capacityCellsFor
  /-- `padding_bits_for(...)` -/
  | paddingBitsFor
  deriving DecidableEq, Repr

/-- The command that stands for a call (R71). There is no stand-alone width check: `CFGA 0, w` performs it. -/
def expandCall : ApiCall → Instr
  | .bitWidthNew w => .cfga 0#64 w
  | .newAligned length width => .cfga length width
  | .newPacked length width => .cfgp length width
  | .get index => .get index 0#64
  | .set index value => .set index value
  | .len => .len 0#64 0#64
  | .getPaddingBitCount => .pad 0#64 0#64
  | .locate index => .loc index 0#64
  | .capacityCellsFor => .cap 0#64 0#64
  | .paddingBitsFor => .pad 0#64 0#64

end Sys2Proof.Machine
end

