-- ==== Sys2Proof/Machine/CellImage.lean ====
section
/-! DEFINITION. The byte image of the cells that the spec recommends to a host that stores what RDC returns, and the
commands that bring a stored buffer back (spec/20_memory.md rules R43, R44). Neither is hardware: no step uses this
file. -/

namespace Sys2Proof.Machine

/-- The 8 bytes of a cell, little-endian: byte 0 is bits 7..0 (R43). -/
def cellBytes (x : Word) : List Byte := (List.range 8).map fun j => x.extractLsb' (8 * j) 8

/-- The image of the whole buffer, cells in increasing index (R43). -/
def cellImage (s : State) : List Byte :=
  (List.range (capacityOf s)).flatMap fun c => cellBytes (Memory.read s.cells c)

/-- The commands that rebuild a buffer from its construction parameters and its element values: the configuration,
then one SET per element (R44). -/
def rebuildCommands (lay : Layout) (width : Word) (values : List Word) : List Instr :=
  let L := BitVec.ofNat 64 values.length
  (match lay with
    | .aligned => Instr.cfga L width
    | .packed => Instr.cfgp L width) ::
    values.zipIdx.map fun p => Instr.set (BitVec.ofNat 64 p.2) p.1

end Sys2Proof.Machine
end

