-- ==== Sys2Proof/Safety.lean ====
section
/-! DEFINITION. The terms that claims about the unit use: where the bits of an element lie, what a well-formed state
is, the status a command is answered with, and what disturbs an element. Each is written from its rule of spec/, not
from the meanings. -/

namespace Sys2Proof.Machine

/-! ### Bits of elements -/

/-- The cell and the bit that hold bit `k` of element `i`: the closed form of R42. -/
def elementPlace (lay : Layout) (w i k : Nat) : Nat × Nat :=
  match lay with
  | .aligned => (i / (64 / w), i % (64 / w) * w + k)
  | .packed => ((i * w + k) / 64, (i * w + k) % 64)

/-- The position `p` lies in the region of element `i` (R42). -/
def inRegion (lay : Layout) (w i : Nat) (p : Nat × Nat) : Prop := ∃ k, k < w ∧ elementPlace lay w i k = p

/-- The cell and the bit of value bit `k` at a Location (R90). -/
def locationPlace : Location → Nat → Nat × Nat
  | .single cell bitOffset, k => (cell, bitOffset + k)
  | .spanning lowCell lowBits highCell _, k => if k < lowBits then (lowCell, 64 - lowBits + k) else (highCell, k - lowBits)

/-- The cells that an access at a Location touches (R46). -/
def locationCells : Location → List Nat
  | .single cell _ => [cell]
  | .spanning lowCell _ highCell _ => [lowCell, highCell]

/-- Bit `p.2` of cell `p.1`. -/
def cellBit (s : State) (p : Nat × Nat) : Bool := (Memory.read s.cells p.1).getLsbD p.2

/-- Bit `k` of element `i` of the buffer (R42). -/
def elementBit (s : State) (i k : Nat) : Bool := cellBit s (elementPlace s.layout s.width i k)

/-- Element `i` of the buffer holds the value `v`: bit by bit, with zeros above `width` (R42, R130). -/
def elementHolds (s : State) (i : Nat) (v : Word) : Prop :=
  ∀ k, k < 64 → v.getLsbD k = (decide (k < s.width) && elementBit s i k)

/-! ### Well-formed states -/

/-- The well-formed states: `MAX_CELLS` is legal (R9), the cell array is in its canonical form, and, whenever
`configured = 1`, (a) to (d) of R31 hold. -/
structure StateInv (s : State) : Prop where
  maxCells_legal : Config.minMaxCells ≤ s.maxCells ∧ s.maxCells ≤ Config.maxMaxCells
  cells_canonical : Memory.wf s.cells = true
  width_legal : s.configured = true → 1 ≤ s.width ∧ s.width ≤ 64
  cells_inside : s.configured = true → ∀ c, capacityOf s ≤ c → Memory.read s.cells c = 0#64
  capacity_fits : s.configured = true → capacityOf s ≤ s.maxCells
  unused_zero : s.configured = true →
    ∀ p : Nat × Nat, (∀ i, i < s.length.toNat → ¬ inRegion s.layout s.width i p) → cellBit s p = false

/-- Two states that the host cannot tell apart: they agree on both ports, on `MAX_CELLS` and on `configured`, and,
while `configured = 1`, on every register and cell (R24, R35). -/
def hostCannotTell (s t : State) : Prop :=
  s.maxCells = t.maxCells ∧ s.pending = t.pending ∧ s.responses = t.responses ∧ s.configured = t.configured ∧
    (s.configured = true → s.layout = t.layout ∧ s.width = t.width ∧ s.length = t.length ∧ s.cells = t.cells)

/-! ### Responses -/

/-- `status = rsp[135:128]` (R61). -/
def statusField (r : ResponseWord) : BitVec 8 := r.extractLsb' 128 8

/-- `d0 = rsp[127:64]` (R61). -/
def d0Field (r : ResponseWord) : Word := r.extractLsb' 64 64

/-- `d1 = rsp[63:0]` (R61). -/
def d1Field (r : ResponseWord) : Word := r.extractLsb' 0 64

/-- The state `s` with the response `status ‖ d0 ‖ d1` (R61) added and nothing else changed. -/
def answered (s : State) (status : BitVec 8) (d0 d1 : Word) : State :=
  { s with responses := s.responses ++ [status ++ d0 ++ d1] }

/-- The cells a buffer needs, by the formulas of R95 and R96 written out. -/
def neededCells (lay : Layout) (L w : Nat) : Nat :=
  match lay with
  | .aligned => (L + 64 / w - 1) / (64 / w)
  | .packed => (L * w + 63) / 64

/-- The status a configuration is answered with: the checks of CFGA and CFGP in their order (R180). -/
def configureStatus (s : State) (lay : Layout) (L w : Nat) : BitVec 8 :=
  if w = 0 ∨ 64 < w then 0x01#8
  else if s.maxCells < neededCells lay L w then 0x04#8
  else 0x00#8

/-- The status a command is answered with, from the raw fields of its word: the table of R170 with the checks in the
order of R180. -/
def expectedStatus (s : State) (op : Opcode) (a b : Nat) : BitVec 8 :=
  if op = 0x00#8 ∨ 0x0A#8 ≤ op then 0x05#8
  else if op = 0x01#8 then configureStatus s .aligned a b
  else if op = 0x02#8 then configureStatus s .packed a b
  else if s.configured = false then 0x06#8
  else if op = 0x03#8 ∨ op = 0x08#8 then (if s.length.toNat ≤ a then 0x02#8 else 0x00#8)
  else if op = 0x04#8 then
    (if s.length.toNat ≤ a then 0x02#8 else if 2 ^ s.width ≤ b then 0x03#8 else 0x00#8)
  else if op = 0x09#8 then (if neededCells s.layout s.length.toNat s.width ≤ a then 0x07#8 else 0x00#8)
  else 0x00#8

/-! ### Runs -/

/-- The move takes away what element `i` holds: a reset, whether or not it cuts a command short, a successful CFGA or CFGP, or a successful SET of element
`i` (R132, R134). -/
def disturbs (s : State) (i : Word) : HostMove → Bool
  | .reset | .commandCutShort _ => true
  | .command w =>
    (expectedStatus s (opcodeField w) (operandA w).toNat (operandB w).toNat == 0x00#8) &&
      (opcodeField w == 0x01#8 || opcodeField w == 0x02#8 || (opcodeField w == 0x04#8 && operandA w == i))

/-- None of the first `n` moves pending in `s` disturbs element `i`, each judged in the state it meets. -/
def undisturbed (i : Word) : Nat → State → Prop
  | 0, _ => True
  | n + 1, s =>
    (∀ m rest, s.pending = m :: rest → disturbs s i m = false) ∧
      ∀ t, step s = .next t → undisturbed i n t

end Sys2Proof.Machine
end

