-- ==== Sys2Proof/Certificates/Slice0/Obligations.lean ====
section
/-! DEFINITION. The statements for the provers, in the order of OBLIGATIONS.json. -/

open Sys2Proof Sys2Proof.Machine

/-! ### Encoding -/

/-- Decoding the word of a well-formed command gives the command back (spec/30_encoding.md sections 1 to 4). -/
def Obligations.DecodeOfEncode : Prop := ∀ i : Instr, i.wellFormed = true → decode (encode i) = i

/-- Every command word is the word of the well-formed command it decodes to, so decoding loses no bit. -/
def Obligations.EncodeOfDecode : Prop := ∀ w : CommandWord, (decode w).wellFormed = true ∧ encode (decode w) = w

/-- A row of spec/opcode_table.json matches a word exactly when it is the row of the command the word decodes to: every
word matches one row and no two rows overlap. -/
def Obligations.TableRowsPartitionTheCommandWords : Prop :=
  ∀ (w : CommandWord) (row : OpcodeRow), w &&& (tableRow row).2 = (tableRow row).1 ↔ row = rowOf (decode w)

/-- Words written out from the spec's encoding decode to the commands they stand for (R60, R62, R66). -/
def Obligations.SampleWordsDecode : Prop :=
  decode 0x01_0000000000001000_0000000000000005#136 = .cfga 4096#64 5#64 ∧
  decode 0x02_0000000000000010_0000000000000025#136 = .cfgp 16#64 37#64 ∧
  decode 0x03_0000000000000009_FFFFFFFFFFFFFFFF#136 = .get 9#64 0xFFFFFFFFFFFFFFFF#64 ∧
  decode 0x04_0000000000000008_000000123456789A#136 = .set 8#64 0x123456789A#64 ∧
  decode 0x05_DEADBEEFDEADBEEF_0123456789ABCDEF#136 = .len 0xDEADBEEFDEADBEEF#64 0x0123456789ABCDEF#64 ∧
  decode 0x06_0000000000000000_0000000000000000#136 = .pad 0#64 0#64 ∧
  decode 0x07_0000000000000000_0000000000000000#136 = .cap 0#64 0#64 ∧
  decode 0x08_0000000000000015_0000000000000000#136 = .loc 21#64 0#64 ∧
  decode 0x09_0000000000000001_0000000000000000#136 = .rdc 1#64 0#64 ∧
  decode 0x00_0000000000000000_0000000000000000#136 = .reserved00 0#64 0#64 ∧
  decode 0x0A_0000000000000000_0000000000000000#136 = .reserved0A 0x0A#8 0#64 0#64 ∧
  decode 0xFF_0000000000000000_0000000000000000#136 = .reserved80 0xFF#8 0#64 0#64

/-- An ignored operand has no effect on the response or on the state, whatever its value (R65). -/
def Obligations.IgnoredOperandsHaveNoEffect : Prop :=
  ∀ (s : State) (a a' b b' : Word),
    exec (.get a b) s = exec (.get a b') s ∧ exec (.loc a b) s = exec (.loc a b') s ∧
    exec (.rdc a b) s = exec (.rdc a b') s ∧ exec (.len a b) s = exec (.len a' b') s ∧
    exec (.pad a b) s = exec (.pad a' b') s ∧ exec (.cap a b) s = exec (.cap a' b') s

/-! ### Steps and runs -/

/-- A step takes the presented command from the port and executes what it decodes to, and adds nothing of its own. -/
def Obligations.StepRunsTheDecodedCommand : Prop :=
  ∀ (i : Instr) (s : State) (rest : List HostMove), i.wellFormed = true → s.pending = .command (encode i) :: rest →
    step s = exec i { s with pending := rest }

/-- A step takes at most one move from the port, adds at most one response after those already given, and never writes
`MAX_CELLS`. That a step exists with no move pending is the model's choice (notes/assumptions/4.md). -/
def Obligations.StepTakesOneMoveAndKeepsMaxCells : Prop :=
  ∀ s t : State, step s = .next t → t.maxCells = s.maxCells ∧ t.pending = s.pending.tail ∧
    ∃ rs : List ResponseWord, rs.length ≤ 1 ∧ t.responses = s.responses ++ rs

/-- From a well-formed state, any finite sequence of command words runs to its end, and each word is answered by one
response, in order: after `k` steps exactly the first `k` responses have been given, the words from the `k`-th on are still
pending, and the response to the word met there has the status of R180 in that state. -/
def Obligations.RunAnswersEveryCommandInOrder : Prop :=
  ∀ (s : State) (ws : List CommandWord), StateInv s → s.pending = ws.map HostMove.command →
    ∃ rs : List ResponseWord, rs.length = ws.length ∧
      ∀ k : Nat, k ≤ ws.length →
        ∃ t : State, Host.Core.run Sys2Proof.core k s = .next t ∧ StateInv t ∧
          t.pending = (ws.drop k).map HostMove.command ∧ t.responses = s.responses ++ rs.take k ∧
          ∀ (w : CommandWord) (r : ResponseWord), ws[k]? = some w → rs[k]? = some r →
            statusField r = expectedStatus t (opcodeField w) (operandA w).toNat (operandB w).toNat

/-- Every command word is answered, by the status that the table of R170 and the order of checks of R180 give it, and a
command answered with an error has no other effect (R63, R180). -/
def Obligations.StatusOfEveryCommand : Prop :=
  ∀ (s : State) (w : CommandWord) (rest : List HostMove), StateInv s → s.pending = .command w :: rest →
    ∃ (t : State) (r : ResponseWord), step s = .next t ∧ t.pending = rest ∧ t.responses = s.responses ++ [r] ∧
      statusField r = expectedStatus s (opcodeField w) (operandA w).toNat (operandB w).toNat ∧
      (statusField r ≠ 0x00#8 → t = answered { s with pending := rest } (statusField r) 0#64 0#64)

/-- A reset, between commands or in the middle of one, leaves the unit unconfigured, produces no response and touches
nothing of the host's (R190, R192). -/
def Obligations.ResetMoveUnconfiguresTheUnit : Prop :=
  ∀ (s : State) (m : HostMove) (rest : List HostMove), m = .reset ∨ (∃ w, m = .commandCutShort w) →
    s.pending = m :: rest →
    ∃ t : State, step s = .next t ∧ t.configured = false ∧ t.responses = s.responses ∧ t.pending = rest ∧
      t.maxCells = s.maxCells

/-- While unconfigured, `layout`, `width`, `length` and `cells` are unobservable: two states that agree on the ports, on
`MAX_CELLS` and on `configured`, and while configured on everything, run alike for ever, resets included (R24, R35). So the
reset values that the model chose (notes/assumptions/3.md) are seen by nobody. -/
def Obligations.UnconfiguredRegistersAreUnobservable : Prop :=
  ∀ (n : Nat) (s t s' : State), hostCannotTell s t → Host.Core.run Sys2Proof.core n s = .next s' →
    ∃ t' : State, Host.Core.run Sys2Proof.core n t = .next t' ∧ hostCannotTell s' t'

/-! ### Invariants and whole-machine rules -/

/-- The state after reset is well-formed; its `MAX_CELLS` is the model's choice (notes/assumptions/2.md). -/
def Obligations.ResetStateIsWellFormed : Prop := StateInv State.reset

/-- Every step from a well-formed state leads to a well-formed state (R31, R32). -/
def Obligations.StepKeepsTheStateWellFormed : Prop := ∀ s t : State, StateInv s → step s = .next t → StateInv t

/-- No step of a well-formed state accesses a cell at or above `capacity_cells`, which R33 says of every command. That
such an access is a fault, the one fault there is, is the model's choice (notes/assumptions/8.md), and so is that a step
with no move pending has a next state (notes/assumptions/4.md). -/
def Obligations.NoStepTouchesACellOutsideTheBuffer : Prop :=
  ∀ s : State, StateInv s →
    (∀ c : Nat, step s ≠ .fault (.cellOutsideBuffer c)) ∧ ∃ t : State, step s = .next t

/-- Of all commands only CFGA and CFGP write the registers, only they and SET write cells, and no command clears
`configured` (R24 to R27, R29). -/
def Obligations.OnlyConfigurationWritesTheRegisters : Prop :=
  ∀ (s t : State) (w : CommandWord) (rest : List HostMove), s.pending = .command w :: rest → step s = .next t →
    (opcodeField w ≠ 0x01#8 → opcodeField w ≠ 0x02#8 →
      t.configured = s.configured ∧ t.layout = s.layout ∧ t.width = s.width ∧ t.length = s.length) ∧
    (opcodeField w ≠ 0x01#8 → opcodeField w ≠ 0x02#8 → opcodeField w ≠ 0x04#8 → t.cells = s.cells) ∧
    (s.configured = true → t.configured = true)

/-! ### Configuration -/

/-- CFGA: its opcode, its two errors in order, the fresh Aligned buffer it constructs, the capacity of that buffer, and
that every element of it reads 0 (R151). -/
def Obligations.CfgaConstructsAnAlignedBuffer : Prop :=
  ∀ (s : State) (L w : Word),
    opcodeField (encode (.cfga L w)) = 0x01#8 ∧
    (w.toNat = 0 ∨ 64 < w.toNat → exec (.cfga L w) s = .next (answered s 0x01#8 0#64 0#64)) ∧
    (1 ≤ w.toNat → w.toNat ≤ 64 → s.maxCells < (L.toNat + 64 / w.toNat - 1) / (64 / w.toNat) →
      exec (.cfga L w) s = .next (answered s 0x04#8 0#64 0#64)) ∧
    (1 ≤ w.toNat → w.toNat ≤ 64 → (L.toNat + 64 / w.toNat - 1) / (64 / w.toNat) ≤ s.maxCells →
      ∃ t : State, exec (.cfga L w) s = .next t ∧
        t = answered { s with configured := true, layout := .aligned, width := w.toNat, length := L, cells := [] }
          0x00#8 0#64 0#64 ∧
        capacityOf t = (L.toNat + 64 / w.toNat - 1) / (64 / w.toNat) ∧
        ∀ i b : Word, i.toNat < L.toNat → exec (.get i b) t = .next (answered t 0x00#8 0#64 0#64))

/-- CFGP: its opcode, its two errors in order, the fresh Packed buffer it constructs, the capacity of that buffer, and
that every element of it reads 0 (R152). -/
def Obligations.CfgpConstructsAPackedBuffer : Prop :=
  ∀ (s : State) (L w : Word),
    opcodeField (encode (.cfgp L w)) = 0x02#8 ∧
    (w.toNat = 0 ∨ 64 < w.toNat → exec (.cfgp L w) s = .next (answered s 0x01#8 0#64 0#64)) ∧
    (1 ≤ w.toNat → w.toNat ≤ 64 → s.maxCells < (L.toNat * w.toNat + 63) / 64 →
      exec (.cfgp L w) s = .next (answered s 0x04#8 0#64 0#64)) ∧
    (1 ≤ w.toNat → w.toNat ≤ 64 → (L.toNat * w.toNat + 63) / 64 ≤ s.maxCells →
      ∃ t : State, exec (.cfgp L w) s = .next t ∧
        t = answered { s with configured := true, layout := .packed, width := w.toNat, length := L, cells := [] }
          0x00#8 0#64 0#64 ∧
        capacityOf t = (L.toNat * w.toNat + 63) / 64 ∧
        ∀ i b : Word, i.toNat < L.toNat → exec (.get i b) t = .next (answered t 0x00#8 0#64 0#64))

/-- The width check, and that it comes first: an invalid width is answered with InvalidWidth for every length, by both
configuration commands, and the state is unchanged (R80, R154). -/
def Obligations.WidthIsCheckedFirst : Prop :=
  (∀ w : Nat, widthValid w = true ↔ 1 ≤ w ∧ w ≤ 64) ∧
  ∀ (s : State) (L w : Word), widthValid w.toNat = false →
    exec (.cfga L w) s = .next (answered s 0x01#8 0#64 0#64) ∧
    exec (.cfgp L w) s = .next (answered s 0x01#8 0#64 0#64)

/-- A configuration of one unit in two states that differ in any way but `MAX_CELLS` and the ports either succeeds in
both, with one and the same outcome in which every cell is 0, or fails in both with the same error, changing neither
(R153). -/
def Obligations.ConfigurationDiscardsTheOldBuffer : Prop :=
  ∀ (i : Instr) (L w : Word) (s t : State), i = .cfga L w ∨ i = .cfgp L w →
    s.maxCells = t.maxCells → s.pending = t.pending → s.responses = t.responses →
    (∃ u : State, exec i s = .next u ∧ exec i t = .next u ∧ u.configured = true ∧ u.length = L ∧ u.width = w.toNat ∧
      (i = .cfga L w → u.layout = .aligned) ∧ (i = .cfgp L w → u.layout = .packed) ∧
      ∀ c : Nat, Memory.read u.cells c = 0#64) ∨
    (∃ e : BitVec 8, e ≠ 0x00#8 ∧ exec i s = .next (answered s e 0#64 0#64) ∧
      exec i t = .next (answered t e 0#64 0#64))

/-! ### Errors -/

/-- InvalidWidth and CapacityExceeded are raised exactly by CFGA and CFGP under their conditions, with the state
unchanged (R171, R174). -/
def Obligations.ConfigurationErrorsExactlyWhen : Prop :=
  ∀ (i : Instr) (s : State),
    (exec i s = .next (answered s 0x01#8 0#64 0#64) ↔
      ∃ L w : Word, (i = .cfga L w ∨ i = .cfgp L w) ∧ widthValid w.toNat = false) ∧
    (exec i s = .next (answered s 0x04#8 0#64 0#64) ↔
      ∃ (lay : Layout) (L w : Word), i = (match lay with | .aligned => Instr.cfga L w | .packed => Instr.cfgp L w) ∧
        widthValid w.toNat = true ∧ s.maxCells < capacityCells lay L.toNat w.toNat)

/-- IndexOutOfBounds, ValueTooWide and CellOutOfRange are raised exactly by their commands under their conditions, with
the state unchanged; ValueTooWide cannot occur when `width = 64` (R172, R173, R177). -/
def Obligations.BufferErrorsExactlyWhen : Prop :=
  ∀ (i : Instr) (s : State),
    (exec i s = .next (answered s 0x02#8 0#64 0#64) ↔
      s.configured = true ∧ ∃ a b : Word, (i = .get a b ∨ i = .set a b ∨ i = .loc a b) ∧ s.length.toNat ≤ a.toNat) ∧
    (exec i s = .next (answered s 0x03#8 0#64 0#64) ↔
      s.configured = true ∧ ∃ a b : Word, i = .set a b ∧ a.toNat < s.length.toNat ∧ 2 ^ s.width ≤ b.toNat) ∧
    (exec i s = .next (answered s 0x07#8 0#64 0#64) ↔
      s.configured = true ∧ ∃ a b : Word, i = .rdc a b ∧ capacityOf s ≤ a.toNat) ∧
    (s.width = 64 → exec i s ≠ .next (answered s 0x03#8 0#64 0#64))

/-- IllegalCommand is raised exactly by a reserved opcode, in any state; NotConfigured exactly by GET, SET, LEN, PAD,
CAP, LOC and RDC while `configured = 0`, whatever their operands; the state is unchanged (R175, R176). -/
def Obligations.CommandErrorsExactlyWhen : Prop :=
  ∀ (i : Instr) (s : State), i.wellFormed = true →
    (exec i s = .next (answered s 0x05#8 0#64 0#64) ↔ opcodeOf i = 0x00#8 ∨ 0x0A#8 ≤ opcodeOf i) ∧
    (exec i s = .next (answered s 0x06#8 0#64 0#64) ↔ s.configured = false ∧ ∃ a b : Word, i = .get a b ∨ i = .set a b ∨
      i = .len a b ∨ i = .pad a b ∨ i = .cap a b ∨ i = .loc a b ∨ i = .rdc a b)

/-- A command word with a reserved opcode is answered with IllegalCommand, whether or not the unit is configured and
whatever its other bits, and nothing else changes (R66). -/
def Obligations.ReservedOpcodesAnswerIllegalCommand : Prop :=
  ∀ (s : State) (w : CommandWord) (rest : List HostMove), s.pending = .command w :: rest →
    opcodeField w = 0x00#8 ∨ 0x0A#8 ≤ opcodeField w →
    step s = .next (answered { s with pending := rest } 0x05#8 0#64 0#64)

/-- Each of the seven reserved rows completes, in every state, with the one effect it has: the IllegalCommand response
(R66). -/
def Obligations.ReservedCommandsComplete : Prop :=
  ∀ (s : State) (op : Opcode) (a b : Word),
    exec (.reserved00 a b) s = .next (answered s 0x05#8 0#64 0#64) ∧
    exec (.reserved0A op a b) s = .next (answered s 0x05#8 0#64 0#64) ∧
    exec (.reserved0C op a b) s = .next (answered s 0x05#8 0#64 0#64) ∧
    exec (.reserved10 op a b) s = .next (answered s 0x05#8 0#64 0#64) ∧
    exec (.reserved20 op a b) s = .next (answered s 0x05#8 0#64 0#64) ∧
    exec (.reserved40 op a b) s = .next (answered s 0x05#8 0#64 0#64) ∧
    exec (.reserved80 op a b) s = .next (answered s 0x05#8 0#64 0#64)

/-- A GET or SET that is answered with an error leaves the cells and every register as they were, and carries no data
(R135). -/
def Obligations.FailedGetOrSetChangesNothing : Prop :=
  ∀ (s t : State) (a b : Word) (r : ResponseWord), exec (.get a b) s = .next t ∨ exec (.set a b) s = .next t →
    t.responses = s.responses ++ [r] → statusField r ≠ 0x00#8 →
    t = { s with responses := t.responses } ∧ d0Field r = 0#64 ∧ d1Field r = 0#64

/-! ### Queries -/

/-- LEN answers `length`, or NotConfigured, and every command leaves in `length` the length operand of the last
successful configuration (R155). -/
def Obligations.LenAnswersTheLength : Prop :=
  (∀ (s : State) (a b : Word), opcodeField (encode (.len a b)) = 0x05#8 ∧
    (s.configured = true → exec (.len a b) s = .next (answered s 0x00#8 s.length 0#64)) ∧
    (s.configured = false → exec (.len a b) s = .next (answered s 0x06#8 0#64 0#64))) ∧
  ∀ (s t : State) (w : CommandWord) (rest : List HostMove), s.pending = .command w :: rest → step s = .next t →
    t.length =
      if (opcodeField w = 0x01#8 ∨ opcodeField w = 0x02#8) ∧
          expectedStatus s (opcodeField w) (operandA w).toNat (operandB w).toNat = 0x00#8
      then operandA w else s.length

/-- CAP answers `capacity_cells` by the formula of its layout, exactly and never above `MAX_CELLS`, or NotConfigured
(R105). -/
def Obligations.CapAnswersTheCapacity : Prop :=
  ∀ (s : State) (a b : Word), StateInv s →
    opcodeField (encode (.cap a b)) = 0x07#8 ∧
    (s.configured = true → ∃ d0 : Word, exec (.cap a b) s = .next (answered s 0x00#8 d0 0#64) ∧
      d0.toNat = neededCells s.layout s.length.toNat s.width ∧ d0.toNat ≤ s.maxCells ∧
      (s.length = 0#64 → d0 = 0#64)) ∧
    (s.configured = false → exec (.cap a b) s = .next (answered s 0x06#8 0#64 0#64))

/-- PAD answers the padding count exactly: the high-order remainder of every cell under Aligned, 0 under Packed, with
the corner cases of the rule, or NotConfigured (R98, R106). -/
def Obligations.PadAnswersThePaddingCount : Prop :=
  ∀ (s : State) (a b : Word), StateInv s →
    opcodeField (encode (.pad a b)) = 0x06#8 ∧
    (s.configured = true → ∃ d0 : Word, exec (.pad a b) s = .next (answered s 0x00#8 d0 0#64) ∧
      (s.layout = .packed → d0 = 0#64) ∧
      (s.layout = .aligned →
        d0.toNat = (64 - 64 / s.width * s.width) * ((s.length.toNat + 64 / s.width - 1) / (64 / s.width))) ∧
      (s.width ∈ [1, 2, 4, 8, 16, 32, 64] → d0 = 0#64) ∧ (s.length = 0#64 → d0 = 0#64) ∧
      (s.layout = .aligned → s.length = 1#64 → s.width = 5 → d0 = 4#64) ∧ d0.toNat ≤ 31 * s.maxCells) ∧
    (s.configured = false → exec (.pad a b) s = .next (answered s 0x06#8 0#64 0#64))

/-- LOC answers the cell and the location word of the element, field by field, by the formulas of its layout, with the
corner cases of the rule, or its two errors (R68, R104). -/
def Obligations.LocAnswersTheLocation : Prop :=
  ∀ (s : State) (a b : Word), StateInv s →
    opcodeField (encode (.loc a b)) = 0x08#8 ∧
    (s.configured = false → exec (.loc a b) s = .next (answered s 0x06#8 0#64 0#64)) ∧
    (s.configured = true → s.length.toNat ≤ a.toNat → exec (.loc a b) s = .next (answered s 0x02#8 0#64 0#64)) ∧
    (s.configured = true → a.toNat < s.length.toNat → ∃ d0 d1 : Word,
      exec (.loc a b) s = .next (answered s 0x00#8 d0 d1) ∧
      (d1.extractLsb' 7 1).toNat = 0 ∧ (d1.extractLsb' 15 1).toNat = 0 ∧ (d1.extractLsb' 23 41).toNat = 0 ∧
      (s.width ∈ [1, 2, 4, 8, 16, 32, 64] → (d1.extractLsb' 6 1).toNat = 0) ∧ (s.width = 64 → d1 = 0x4000#64) ∧
      match s.layout with
      | .aligned =>
        d0.toNat = a.toNat / (64 / s.width) ∧
        (d1.extractLsb' 0 6).toNat = a.toNat % (64 / s.width) * s.width ∧ (d1.extractLsb' 6 1).toNat = 0 ∧
        (d1.extractLsb' 8 7).toNat = s.width ∧ (d1.extractLsb' 16 7).toNat = 0
      | .packed =>
        d0.toNat = a.toNat * s.width / 64 ∧ (d1.extractLsb' 0 6).toNat = a.toNat * s.width % 64 ∧
        if a.toNat * s.width % 64 + s.width ≤ 64 then
          (d1.extractLsb' 6 1).toNat = 0 ∧ (d1.extractLsb' 8 7).toNat = s.width ∧ (d1.extractLsb' 16 7).toNat = 0
        else
          (d1.extractLsb' 6 1).toNat = 1 ∧ (d1.extractLsb' 8 7).toNat = 64 - a.toNat * s.width % 64 ∧
          (d1.extractLsb' 16 7).toNat = s.width - (64 - a.toNat * s.width % 64))

/-- RDC answers the whole cell, the masked read with the full mask, in which every bit of no element reads 0, or its two
errors, always one of them when `length = 0` (R156). -/
def Obligations.RdcAnswersTheCell : Prop :=
  ∀ (s : State) (a b : Word),
    opcodeField (encode (.rdc a b)) = 0x09#8 ∧
    (s.configured = false → exec (.rdc a b) s = .next (answered s 0x06#8 0#64 0#64)) ∧
    (s.configured = true → capacityOf s ≤ a.toNat → exec (.rdc a b) s = .next (answered s 0x07#8 0#64 0#64)) ∧
    (s.configured = true → a.toNat < capacityOf s →
      exec (.rdc a b) s = .next (answered s 0x00#8 (Memory.read s.cells a.toNat) 0#64) ∧
      maskedRead s a.toNat 0 64 = .ok (Memory.read s.cells a.toNat) ∧
      (StateInv s → ∀ k : Nat, (∀ i, i < s.length.toNat → ¬ inRegion s.layout s.width i (a.toNat, k)) →
        (Memory.read s.cells a.toNat).getLsbD k = false)) ∧
    (s.configured = true → s.length = 0#64 → exec (.rdc a b) s = .next (answered s 0x07#8 0#64 0#64))

/-- GET, RDC, LEN, PAD, CAP and LOC leave the state unchanged and answer the same again; a successful SET repeated
leaves the state as one leaves it; and it alters no other element (R48). -/
def Obligations.ReadingHasNoSideEffectAndSetIsIdempotent : Prop :=
  (∀ (i : Instr) (a b : Word) (s t : State),
    i = .get a b ∨ i = .rdc a b ∨ i = .len a b ∨ i = .pad a b ∨ i = .cap a b ∨ i = .loc a b → exec i s = .next t →
    ∃ r : ResponseWord, t = { s with responses := s.responses ++ [r] } ∧
      exec i t = .next { t with responses := t.responses ++ [r] }) ∧
  ∀ (i v : Word) (s t : State), StateInv s → s.configured = true → i.toNat < s.length.toNat → v.toNat < 2 ^ s.width →
    exec (.set i v) s = .next t →
    exec (.set i v) t = .next (answered t 0x00#8 0#64 0#64) ∧
    ∀ j k : Nat, j < s.length.toNat → j ≠ i.toNat → k < s.width → elementBit t j k = elementBit s j k

/-! ### Extract and insert -/

/-- GET answers the element's value, bit by bit from where R42 places them and zero-extended, or its two errors (R130). -/
def Obligations.GetAnswersTheElement : Prop :=
  ∀ (s : State) (a b : Word), StateInv s →
    opcodeField (encode (.get a b)) = 0x03#8 ∧
    (s.configured = false → exec (.get a b) s = .next (answered s 0x06#8 0#64 0#64)) ∧
    (s.configured = true → s.length.toNat ≤ a.toNat → exec (.get a b) s = .next (answered s 0x02#8 0#64 0#64)) ∧
    (s.configured = true → a.toNat < s.length.toNat →
      ∃ v : Word, exec (.get a b) s = .next (answered s 0x00#8 v 0#64) ∧ elementHolds s a.toNat v)

/-- The value GET answers is below `2^width`, in every well-formed configured state (R136). -/
def Obligations.GetAnswersBelowTwoToTheWidth : Prop :=
  ∀ (s t : State) (a b d0 d1 : Word), StateInv s → s.configured = true → a.toNat < s.length.toNat →
    exec (.get a b) s = .next t → t.responses = s.responses ++ [0x00#8 ++ d0 ++ d1] → d0.toNat < 2 ^ s.width

/-- A successful SET puts every bit of the value where R42 places it and changes no other bit of any cell and no
register; in the other cases it answers its errors, in order (R131). -/
def Obligations.SetWritesExactlyItsRegion : Prop :=
  ∀ (s : State) (a b : Word), StateInv s →
    opcodeField (encode (.set a b)) = 0x04#8 ∧
    (s.configured = false → exec (.set a b) s = .next (answered s 0x06#8 0#64 0#64)) ∧
    (s.configured = true → s.length.toNat ≤ a.toNat → exec (.set a b) s = .next (answered s 0x02#8 0#64 0#64)) ∧
    (s.configured = true → a.toNat < s.length.toNat → 2 ^ s.width ≤ b.toNat →
      exec (.set a b) s = .next (answered s 0x03#8 0#64 0#64)) ∧
    (s.configured = true → a.toNat < s.length.toNat → b.toNat < 2 ^ s.width →
      ∃ t : State, exec (.set a b) s = .next t ∧
        t = answered { s with cells := t.cells } 0x00#8 0#64 0#64 ∧ Memory.wf t.cells = true ∧
        (∀ k : Nat, k < s.width → elementBit t a.toNat k = b.getLsbD k) ∧
        ∀ p : Nat × Nat, ¬ inRegion s.layout s.width a.toNat p → cellBit t p = cellBit s p)

/-- The frame of SET, computed with the Location the meaning computes: no cell but those of the Location changes, and
in them only the bits of the element do (R117, R119). -/
def Obligations.SetFrameAtItsLocation : Prop :=
  ∀ (s t : State) (a b : Word), StateInv s → exec (.set a b) s = .next t →
    (∀ c : Nat, c ∉ locationCells (locate s.layout a.toNat s.width) → Memory.read t.cells c = Memory.read s.cells c) ∧
    (s.configured = true → a.toNat < s.length.toNat →
      match locate s.layout a.toNat s.width with
      | .single cell off => ∀ k : Nat, k < off ∨ off + s.width ≤ k → cellBit t (cell, k) = cellBit s (cell, k)
      | .spanning lowCell lowBits highCell highBits =>
        (∀ k : Nat, k < 64 - lowBits → cellBit t (lowCell, k) = cellBit s (lowCell, k)) ∧
        ∀ k : Nat, highBits ≤ k → cellBit t (highCell, k) = cellBit s (highCell, k)) ∧
    t.configured = s.configured ∧ t.layout = s.layout ∧ t.width = s.width ∧ t.length = s.length ∧
    t.maxCells = s.maxCells ∧ t.pending = s.pending

/-- A GET depends on its operand, on the registers and on the one or two cells of its Location, one under Aligned, and
on nothing else (R46, R137). -/
def Obligations.GetDependsOnItsLocationOnly : Prop :=
  ∀ (s s' : State) (a b : Word) (status : BitVec 8) (v : Word),
    s'.configured = s.configured → s'.layout = s.layout → s'.width = s.width → s'.length = s.length →
    (∀ c ∈ locationCells (locate s.layout a.toNat s.width), Memory.read s'.cells c = Memory.read s.cells c) →
    (locationCells (locate s.layout a.toNat s.width)).length ≤ 2 ∧
    (s.layout = .aligned → (locationCells (locate s.layout a.toNat s.width)).length = 1) ∧
    (exec (.get a b) s = .next (answered s status v 0#64) → exec (.get a b) s' = .next (answered s' status v 0#64))

/-- Round-trip: after a successful SET of an element, a GET of it answers the value at any later time before the next
successful SET of that element, successful configuration or reset, whatever else the host presents (R132). -/
def Obligations.GetAnswersTheLastSet : Prop :=
  ∀ (s t u : State) (i v b : Word) (n : Nat), StateInv s → s.configured = true → i.toNat < s.length.toNat →
    v.toNat < 2 ^ s.width → exec (.set i v) s = .next t → undisturbed i n t →
    Host.Core.run Sys2Proof.core n t = .next u → exec (.get i b) u = .next (answered u 0x00#8 v 0#64)

/-- Locality: a successful SET leaves the answer of a GET of every other element as it was, and every bit outside the
element's region (R133). -/
def Obligations.SetLeavesOtherElements : Prop :=
  ∀ (s t : State) (i j v b : Word), StateInv s → s.configured = true → i.toNat < s.length.toNat →
    j.toNat < s.length.toNat → i ≠ j → v.toNat < 2 ^ s.width → exec (.set j v) s = .next t →
    (∃ x : Word, exec (.get i b) s = .next (answered s 0x00#8 x 0#64) ∧
      exec (.get i b) t = .next (answered t 0x00#8 x 0#64)) ∧
    ∀ p : Nat × Nat, ¬ inRegion s.layout s.width j.toNat p → cellBit t p = cellBit s p

/-- A fresh buffer reads zero: after a successful configuration and before any successful SET of an element, a GET of
it answers 0, whatever else the host presents (R134). -/
def Obligations.FreshBufferReadsZero : Prop :=
  ∀ (s t u : State) (L w i b : Word) (n : Nat), StateInv s → widthValid w.toNat = true → i.toNat < L.toNat →
    (capacityCells .aligned L.toNat w.toNat ≤ s.maxCells ∧ exec (.cfga L w) s = .next t) ∨
      (capacityCells .packed L.toNat w.toNat ≤ s.maxCells ∧ exec (.cfgp L w) s = .next t) →
    undisturbed i n t → Host.Core.run Sys2Proof.core n t = .next u →
    exec (.get i b) u = .next (answered u 0x00#8 0#64 0#64)

/-! ### Cell layout -/

/-- Aligned locations: the formulas, that the element fits in its one cell, and the widths of one element per cell (R92). -/
def Obligations.AlignedLocations : Prop :=
  ∀ i w : Nat, 1 ≤ w → w ≤ 64 →
    ∃ cell off : Nat, locate .aligned i w = .single cell off ∧ cell = i / (64 / w) ∧ off = i % (64 / w) * w ∧
      off + w ≤ 64 / w * w ∧ 64 / w * w ≤ 64 ∧ off ≤ 63 ∧ (33 ≤ w → cell = i ∧ off = 0)

/-- Packed locations: the element starts at absolute bit `i * w`, the bounds of each field, that it never spans when the
width divides 64, and that otherwise the least index that spans is `64 div w` (R93). -/
def Obligations.PackedLocations : Prop :=
  ∀ i w : Nat, 1 ≤ w → w ≤ 64 →
    (match locate .packed i w with
      | .single cell off => 64 * cell + off = i * w ∧ off ≤ 63 ∧ off + w ≤ 64
      | .spanning lowCell lowBits highCell highBits =>
        64 * lowCell + (64 - lowBits) = i * w ∧ 1 ≤ lowBits ∧ lowBits ≤ 63 ∧ 1 ≤ highBits ∧ highBits ≤ w - 1 ∧
        lowBits + highBits = w ∧ highCell = lowCell + 1 ∧ ¬ w ∣ 64 ∧ 64 / w ≤ i) ∧
    (¬ w ∣ 64 → ∃ lowCell lowBits highCell highBits : Nat,
      locate .packed (64 / w) w = .spanning lowCell lowBits highCell highBits)

/-- Every location of a valid index lies inside the buffer (R99). -/
def Obligations.EveryLocationLiesInsideTheBuffer : Prop :=
  ∀ (lay : Layout) (L w i : Nat), 1 ≤ w → w ≤ 64 → i < L →
    match locate lay i w with
    | .single cell _ => cell < capacityCells lay L w
    | .spanning lowCell _ highCell _ => highCell = lowCell + 1 ∧ highCell < capacityCells lay L w

/-- Capacity is minimal: the last element's highest cell is the last cell of the buffer, and an empty buffer has none
(R101). -/
def Obligations.CapacityIsMinimal : Prop :=
  ∀ (lay : Layout) (L w : Nat), 1 ≤ w → w ≤ 64 →
    (L = 0 → capacityCells lay L w = 0) ∧
    (1 ≤ L → match locate lay (L - 1) w with
      | .single cell _ => cell + 1 = capacityCells lay L w
      | .spanning _ _ highCell _ => highCell + 1 = capacityCells lay L w)

/-- The regions of two elements have no position in common (R102). -/
def Obligations.RegionsAreDisjoint : Prop :=
  ∀ (lay : Layout) (L w i j : Nat), 1 ≤ w → w ≤ 64 → i < L → j < L → i ≠ j →
    ∀ p : Nat × Nat, ¬ (inRegion lay w i p ∧ inRegion lay w j p)

/-- The Location that the layout computer gives an element places each of its bits where the closed form does (R42). -/
def Obligations.LocationIsTheClosedForm : Prop :=
  ∀ (lay : Layout) (w i k : Nat), 1 ≤ w → w ≤ 64 → k < w →
    locationPlace (locate lay i w) k = elementPlace lay w i k ∧ (elementPlace lay w i k).2 < 64

/-! ### Masked words -/

/-- The masked-word primitives as arithmetic on numbers: masks, the field read, the field write, splitting and
composing (R110, R111, R112, R113, R114, R115). -/
def Obligations.MaskedWordsAsNumbers : Prop :=
  (∀ n : Nat, n ≤ 64 → (mask n).toNat = 2 ^ n - 1) ∧
  (∀ off n : Nat, off + n ≤ 64 → (fieldMask off n).toNat = (2 ^ n - 1) * 2 ^ off) ∧
  (∀ (x : Word) (off n : Nat), (extractField x off n).toNat = x.toNat / 2 ^ off % 2 ^ n) ∧
  (∀ (x v : Word) (off n : Nat), off + n ≤ 64 → v.toNat < 2 ^ n →
    (replaceField x off n v).toNat + x.toNat / 2 ^ off % 2 ^ n * 2 ^ off = x.toNat + v.toNat * 2 ^ off) ∧
  (∀ (v : Word) (low high : Nat), low ≤ 63 → v.toNat < 2 ^ (low + high) →
    (splitValue v low).1.toNat = v.toNat % 2 ^ low ∧ (splitValue v low).2.toNat = v.toNat / 2 ^ low ∧
    (splitValue v low).2.toNat < 2 ^ high ∧ composeValue (splitValue v low).1 (splitValue v low).2 low = v) ∧
  ∀ (lo hi : Word) (low high : Nat), lo.toNat < 2 ^ low → hi.toNat < 2 ^ high → low + high ≤ 64 →
    (composeValue lo hi low).toNat = hi.toNat * 2 ^ low + lo.toNat

/-- What is inserted at the Location of an element is what is extracted there immediately afterwards (R118). -/
def Obligations.ReadAfterWriteAtALocation : Prop :=
  ∀ (s t : State) (lay : Layout) (i w : Nat) (v : Word), Memory.wf s.cells = true → 1 ≤ w → w ≤ 64 →
    v.toNat < 2 ^ w → insertAt s (locate lay i w) w v = .ok t → extractAt t (locate lay i w) w = .ok v

/-! ### Outside the unit -/

/-- A line of the textual form stands for its command word: the nine forms, one command a line, decimal and hexadecimal
numbers, comments (R70). The model's choices of notes/assumptions/9.md, on which R70 is silent, are that the line feed ends
a line, that a space is a blank and where blanks may stand, that a blank line stands for no command, and that a line which
is none of the forms makes the text stand for nothing. -/
def Obligations.AssembledLinesAreTheirWords : Prop :=
  assemble ['C', 'F', 'G', 'A', ' ', '5', ',', ' ', '1', '3'] = some [0x01_0000000000000005_000000000000000D#136] ∧
  assemble ['C', 'F', 'G', 'P', ' ', '2', '2', ',', '3'] = some [0x02_0000000000000016_0000000000000003#136] ∧
  assemble ['G', 'E', 'T', ' ', '2', '1'] = some [0x03_0000000000000015_0000000000000000#136] ∧
  assemble ['S', 'E', 'T', ' ', '1', ',', ' ', '0', 'x', 'A', 'B', ' ', ';', ' ', 'v', '\n', '\n', 'L', 'E', 'N'] =
    some [0x04_0000000000000001_00000000000000AB#136, 0x05_0000000000000000_0000000000000000#136] ∧
  assemble ['P', 'A', 'D', '\n', 'C', 'A', 'P'] =
    some [0x06_0000000000000000_0000000000000000#136, 0x07_0000000000000000_0000000000000000#136] ∧
  assemble ['L', 'O', 'C', ' ', '8', '\n', 'R', 'D', 'C', ' ', '0', 'x', '1', 'F'] =
    some [0x08_0000000000000008_0000000000000000#136, 0x09_000000000000001F_0000000000000000#136] ∧
  assemble ['G', 'E', 'T', ' ', '1', ',', '2'] = none

/-- The recommended byte image holds, for every cell in increasing index, its 8 bytes with bits 7..0 first (R43). -/
def Obligations.CellImageIsLittleEndian : Prop :=
  ∀ s : State, (cellImage s).length = 8 * capacityOf s ∧
    ∀ c j : Nat, c < capacityOf s → j < 8 →
      (cellImage s)[8 * c + j]? = some ((Memory.read s.cells c).extractLsb' (8 * j) 8)

/-- A buffer is rebuilt, cell for cell, from its layout, its width, its length and its element values: the configuration
and then one SET per element, presented to a unit in any well-formed state with the same `MAX_CELLS` (R44). -/
def Obligations.RebuildRestoresTheBuffer : Prop :=
  ∀ (s u : State) (values : List Word), StateInv s → s.configured = true → values.length = s.length.toNat →
    (∀ i v, values[i]? = some v → elementHolds s i v) →
    StateInv u → u.maxCells = s.maxCells →
    u.pending = (rebuildCommands s.layout (BitVec.ofNat 64 s.width) values).map (fun i => .command (encode i)) →
    ∃ t : State, Host.Core.run Sys2Proof.core (values.length + 1) u = .next t ∧ t.configured = true ∧
      t.layout = s.layout ∧ t.width = s.width ∧ t.length = s.length ∧ t.cells = s.cells
end

