-- ==== Sys2Proof/Laws/State.lean ====
section
/-! SUPPORT. One lemma per field per update of the state, so that no proof unfolds a record update. -/

namespace Sys2Proof.Machine

section AppendResponse
variable (s : State) (r : ResponseWord)
@[simp] theorem appendResponse_configured : (appendResponse s r).configured = s.configured := rfl
@[simp] theorem appendResponse_layout : (appendResponse s r).layout = s.layout := rfl
@[simp] theorem appendResponse_width : (appendResponse s r).width = s.width := rfl
@[simp] theorem appendResponse_length : (appendResponse s r).length = s.length := rfl
@[simp] theorem appendResponse_cells : (appendResponse s r).cells = s.cells := rfl
@[simp] theorem appendResponse_maxCells : (appendResponse s r).maxCells = s.maxCells := rfl
@[simp] theorem appendResponse_pending : (appendResponse s r).pending = s.pending := rfl
@[simp] theorem appendResponse_responses : (appendResponse s r).responses = s.responses ++ [r] := rfl
end AppendResponse

section AcceptMove
variable (s : State)
@[simp] theorem acceptMove_configured : (acceptMove s).configured = s.configured := rfl
@[simp] theorem acceptMove_layout : (acceptMove s).layout = s.layout := rfl
@[simp] theorem acceptMove_width : (acceptMove s).width = s.width := rfl
@[simp] theorem acceptMove_length : (acceptMove s).length = s.length := rfl
@[simp] theorem acceptMove_cells : (acceptMove s).cells = s.cells := rfl
@[simp] theorem acceptMove_maxCells : (acceptMove s).maxCells = s.maxCells := rfl
@[simp] theorem acceptMove_pending : (acceptMove s).pending = s.pending.tail := rfl
@[simp] theorem acceptMove_responses : (acceptMove s).responses = s.responses := rfl
end AcceptMove

section Construct
variable (lay : Layout) (L : Word) (w : Nat) (s : State)
@[simp] theorem construct_configured : (construct lay L w s).configured = true := rfl
@[simp] theorem construct_layout : (construct lay L w s).layout = lay := rfl
@[simp] theorem construct_width : (construct lay L w s).width = w := rfl
@[simp] theorem construct_length : (construct lay L w s).length = L := rfl
@[simp] theorem construct_cells : (construct lay L w s).cells = [] := rfl
@[simp] theorem construct_maxCells : (construct lay L w s).maxCells = s.maxCells := rfl
@[simp] theorem construct_pending : (construct lay L w s).pending = s.pending := rfl
@[simp] theorem construct_responses : (construct lay L w s).responses = s.responses := rfl
end Construct

section Answered
variable (s : State) (st : BitVec 8) (d0 d1 : Word)
@[simp] theorem answered_configured : (answered s st d0 d1).configured = s.configured := rfl
@[simp] theorem answered_layout : (answered s st d0 d1).layout = s.layout := rfl
@[simp] theorem answered_width : (answered s st d0 d1).width = s.width := rfl
@[simp] theorem answered_length : (answered s st d0 d1).length = s.length := rfl
@[simp] theorem answered_cells : (answered s st d0 d1).cells = s.cells := rfl
@[simp] theorem answered_maxCells : (answered s st d0 d1).maxCells = s.maxCells := rfl
@[simp] theorem answered_pending : (answered s st d0 d1).pending = s.pending := rfl
@[simp] theorem answered_responses : (answered s st d0 d1).responses = s.responses ++ [st ++ d0 ++ d1] := rfl
end Answered

section WithFetchWord
variable (s : State) (nbits w : Nat)
@[simp] theorem withFetchWord_configured : (s.withFetchWord nbits w).configured = s.configured := rfl
@[simp] theorem withFetchWord_layout : (s.withFetchWord nbits w).layout = s.layout := rfl
@[simp] theorem withFetchWord_width : (s.withFetchWord nbits w).width = s.width := rfl
@[simp] theorem withFetchWord_length : (s.withFetchWord nbits w).length = s.length := rfl
@[simp] theorem withFetchWord_cells : (s.withFetchWord nbits w).cells = s.cells := rfl
@[simp] theorem withFetchWord_maxCells : (s.withFetchWord nbits w).maxCells = s.maxCells := rfl
@[simp] theorem withFetchWord_pending :
    (s.withFetchWord nbits w).pending = .command (BitVec.ofNat 136 (w % 2 ^ nbits)) :: s.pending := rfl
@[simp] theorem withFetchWord_responses : (s.withFetchWord nbits w).responses = s.responses := rfl
end WithFetchWord

section ResetState
@[simp] theorem reset_configured : State.reset.configured = false := rfl
@[simp] theorem reset_cells : State.reset.cells = [] := rfl
@[simp] theorem reset_pending : State.reset.pending = [] := rfl
@[simp] theorem reset_responses : State.reset.responses = [] := rfl
end ResetState

section DerivedQuantities
variable (s : State)
@[simp] theorem capacityOf_appendResponse (r : ResponseWord) : capacityOf (appendResponse s r) = capacityOf s := rfl
@[simp] theorem capacityOf_acceptMove : capacityOf (acceptMove s) = capacityOf s := rfl
@[simp] theorem capacityOf_answered (st : BitVec 8) (d0 d1 : Word) :
    capacityOf (answered s st d0 d1) = capacityOf s := rfl
@[simp] theorem capacityOf_construct (lay : Layout) (L : Word) (w : Nat) :
    capacityOf (construct lay L w s) = capacityCells lay L.toNat w := rfl
@[simp] theorem cellBit_appendResponse (r : ResponseWord) (p : Nat × Nat) :
    cellBit (appendResponse s r) p = cellBit s p := rfl
@[simp] theorem cellBit_acceptMove (p : Nat × Nat) : cellBit (acceptMove s) p = cellBit s p := rfl
@[simp] theorem elementBit_appendResponse (r : ResponseWord) (i k : Nat) :
    elementBit (appendResponse s r) i k = elementBit s i k := rfl
@[simp] theorem elementBit_acceptMove (i k : Nat) : elementBit (acceptMove s) i k = elementBit s i k := rfl
end DerivedQuantities

end Sys2Proof.Machine
end

