-- ==== Sys2Proof/Laws/Memory.lean ====
section
/-! SUPPORT. The cell memory: the canonical form is kept, a read after a write, and equal reads mean equal data. -/

namespace Sys2Proof.Machine

@[simp] theorem Memory.read_nil (c : Nat) : Memory.read [] c = 0#64 := rfl

theorem Memory.read_cons (a : Nat) (v : Word) (m : Memory) (c : Nat) :
    Memory.read ((a, v) :: m) c = if c = a then v else Memory.read m c := rfl

theorem Memory.wfFrom_cons {lo a : Nat} {v : Word} {m : Memory} :
    Memory.wfFrom lo ((a, v) :: m) = true ↔ lo ≤ a ∧ v ≠ 0#64 ∧ Memory.wfFrom (a + 1) m = true := by
  simp [Memory.wfFrom, and_assoc]

/-- The canonical form from `lo` on is one from every smaller index on. -/
theorem Memory.wfFrom_mono {lo lo' : Nat} (h : lo' ≤ lo) {m : Memory} (hm : Memory.wfFrom lo m = true) :
    Memory.wfFrom lo' m = true := by
  cases m with
  | nil => rfl
  | cons p m =>
    obtain ⟨h1, h2, h3⟩ := Memory.wfFrom_cons.1 hm
    exact Memory.wfFrom_cons.2 ⟨by omega, h2, h3⟩

/-- No entry of a canonical memory lies below its first index. -/
theorem Memory.read_eq_zero_of_lt {lo : Nat} {m : Memory} (hm : Memory.wfFrom lo m = true) {c : Nat} (hc : c < lo) :
    Memory.read m c = 0#64 := by
  induction m generalizing lo with
  | nil => rfl
  | cons p m ih =>
    obtain ⟨h1, _, h3⟩ := Memory.wfFrom_cons.1 hm
    rw [Memory.read_cons, if_neg (by omega)]
    exact ih h3 (by omega)

/-- A write keeps the canonical form from `lo` on, if it is at or above `lo`. -/
theorem Memory.write_wfFrom {lo : Nat} {m : Memory} (hm : Memory.wfFrom lo m = true) {c : Nat} (hc : lo ≤ c)
    (v : Word) : Memory.wfFrom lo (Memory.write m c v) = true := by
  induction m generalizing lo with
  | nil =>
    unfold Memory.write
    split
    · rfl
    · exact Memory.wfFrom_cons.2 ⟨hc, by assumption, rfl⟩
  | cons p m ih =>
    obtain ⟨a, x⟩ := p
    obtain ⟨h1, h2, h3⟩ := Memory.wfFrom_cons.1 hm
    unfold Memory.write
    split
    · split
      · exact hm
      · exact Memory.wfFrom_cons.2 ⟨hc, by assumption, Memory.wfFrom_cons.2 ⟨by omega, h2, h3⟩⟩
    · split
      · split
        · exact Memory.wfFrom_mono (by omega) h3
        · exact Memory.wfFrom_cons.2 ⟨hc, by assumption, Memory.wfFrom_mono (by omega) h3⟩
      · exact Memory.wfFrom_cons.2 ⟨h1, h2, ih h3 (by omega)⟩

/-- Every write keeps the canonical form. -/
theorem Memory.write_wf {m : Memory} (hm : Memory.wf m = true) (c : Nat) (v : Word) :
    Memory.wf (Memory.write m c v) = true := Memory.write_wfFrom hm (Nat.zero_le c) v

/-- What a write to a canonical memory does to every cell. -/
theorem Memory.read_write_from {lo : Nat} {m : Memory} (hm : Memory.wfFrom lo m = true) (c : Nat) (v : Word) (c' : Nat) :
    Memory.read (Memory.write m c v) c' = if c' = c then v else Memory.read m c' := by
  induction m generalizing lo with
  | nil =>
    unfold Memory.write
    split <;> simp_all [Memory.read]
  | cons p m ih =>
    obtain ⟨a, x⟩ := p
    obtain ⟨h1, h2, h3⟩ := Memory.wfFrom_cons.1 hm
    have hlow := fun {d : Nat} (hd : d < a + 1) => Memory.read_eq_zero_of_lt h3 hd
    unfold Memory.write
    split
    · split
      · rw [Memory.read_cons]
        by_cases hc : c' = c
        · rw [if_pos hc, if_neg (by omega), hlow (by omega)]
          exact (by assumption : v = 0#64).symm
        · rw [if_neg hc]
      · simp only [Memory.read_cons]
    · split
      · split
        · subst_vars
          by_cases hc : c' = a
          · rw [if_pos hc, hlow (by omega)]
          · rw [if_neg hc, Memory.read_cons, if_neg hc]
        · subst_vars
          simp only [Memory.read_cons]
          split <;> rfl
      · simp only [Memory.read_cons, ih h3]
        split <;> split <;> first | rfl | omega

/-- A read after a write gives the value written, and every other cell keeps its value. -/
theorem Memory.read_write {m : Memory} (hm : Memory.wf m = true) (c : Nat) (v : Word) (c' : Nat) :
    Memory.read (Memory.write m c v) c' = if c' = c then v else Memory.read m c' :=
  Memory.read_write_from hm c v c'

theorem Memory.ext_from {lo lo' : Nat} {m m' : Memory} (hm : Memory.wfFrom lo m = true)
    (hm' : Memory.wfFrom lo' m' = true) (h : ∀ c, Memory.read m c = Memory.read m' c) : m = m' := by
  induction m generalizing lo lo' m' with
  | nil =>
    cases m' with
    | nil => rfl
    | cons p m' =>
      obtain ⟨a, x⟩ := p
      have ha := h a
      rw [Memory.read_cons, if_pos rfl] at ha
      exact absurd ha.symm (Memory.wfFrom_cons.1 hm').2.1
  | cons p m ih =>
    obtain ⟨a, x⟩ := p
    obtain ⟨_, hx, hr⟩ := Memory.wfFrom_cons.1 hm
    cases m' with
    | nil =>
      have ha := h a
      rw [Memory.read_cons, if_pos rfl] at ha
      exact absurd ha hx
    | cons q m' =>
      obtain ⟨b, y⟩ := q
      obtain ⟨_, hy, hr'⟩ := Memory.wfFrom_cons.1 hm'
      have ha := h a
      have hb := h b
      simp only [Memory.read_cons, if_true] at ha hb
      have hab : a = b := by
        by_contra hne
        rw [if_neg hne] at ha
        rw [if_neg (Ne.symm hne)] at hb
        rcases Nat.lt_or_gt_of_ne hne with hlt | hgt
        · exact hx (ha.trans (Memory.read_eq_zero_of_lt hr' (by omega)))
        · exact hy (hb.symm.trans (Memory.read_eq_zero_of_lt hr (by omega)))
      subst hab
      simp only [if_true] at ha
      subst ha
      refine congrArg _ (ih hr hr' fun c => ?_)
      have hc := h c
      simp only [Memory.read_cons] at hc
      by_cases hca : c = a
      · subst hca
        rw [Memory.read_eq_zero_of_lt hr (by omega), Memory.read_eq_zero_of_lt hr' (by omega)]
      · simpa only [if_neg hca] using hc

/-- Canonical memories with equal cells are equal data. -/
theorem Memory.ext {m m' : Memory} (hm : Memory.wf m = true) (hm' : Memory.wf m' = true)
    (h : ∀ c, Memory.read m c = Memory.read m' c) : m = m' := Memory.ext_from hm hm' h

/-- The cell array right after reset is in canonical form. -/
theorem Memory.reset_wf : Memory.wf State.reset.cells = true := rfl

/-- The cell array of a fresh buffer is in canonical form. -/
theorem Memory.construct_wf (lay : Layout) (L : Word) (w : Nat) (s : State) :
    Memory.wf (construct lay L w s).cells = true := rfl

end Sys2Proof.Machine
end

