-- ==== Sys2Proof/Laws/Masked.lean ====
section
/-! SUPPORT. The masked-word primitives, bit by bit (spec/42_masked_word.md rules R110 to R117). -/

namespace Sys2Proof.Machine

/-- A value below `2^n` has no bit at or above `n`. -/
theorem getLsbD_eq_false_of_lt {v : Word} {n k : Nat} (hv : v.toNat < 2 ^ n) (hk : n ≤ k) : v.getLsbD k = false :=
  Nat.testBit_lt_two_pow (Nat.lt_of_lt_of_le hv (Nat.pow_le_pow_right (by decide) hk))

/-- A word none of whose bits at or above `n` is set is below `2^n`. -/
theorem toNat_lt_of_getLsbD {v : Word} {n : Nat} (h : ∀ k, n ≤ k → v.getLsbD k = false) : v.toNat < 2 ^ n :=
  Nat.lt_pow_two_of_testBit _ h

theorem getLsbD_mask (n k : Nat) : (mask n).getLsbD k = (decide (k < 64) && decide (k < n)) := by
  simp [mask, BitVec.getLsbD_ofNat, Nat.testBit_two_pow_sub_one]

theorem getLsbD_fieldMask (off n k : Nat) :
    (fieldMask off n).getLsbD k = (decide (k < 64) && decide (off ≤ k) && decide (k < off + n)) := by
  rw [fieldMask, BitVec.getLsbD_shiftLeft, getLsbD_mask, Bool.eq_iff_iff]
  simp only [Bool.and_eq_true, Bool.not_eq_true', decide_eq_true_eq, decide_eq_false_iff_not]
  omega

theorem getLsbD_extractField (x : Word) (off n k : Nat) :
    (extractField x off n).getLsbD k = (decide (k < n) && x.getLsbD (off + k)) := by
  rw [extractField, BitVec.getLsbD_and, BitVec.getLsbD_ushiftRight, getLsbD_mask]
  by_cases hk : k < 64
  · simp only [hk, decide_true, Bool.true_and, Bool.and_comm]
  · rw [BitVec.getLsbD_of_ge x (off + k) (by omega), Bool.false_and, Bool.and_false]

/-- A masked read yields an `n`-bit value. -/
theorem extractField_lt (x : Word) (off n : Nat) : (extractField x off n).toNat < 2 ^ n :=
  toNat_lt_of_getLsbD fun k hk => by simp [getLsbD_extractField, Nat.not_lt.2 hk]

theorem getLsbD_replaceField {v : Word} {n : Nat} (hv : v.toNat < 2 ^ n) (old : Word) (off k : Nat) (hk : k < 64) :
    (replaceField old off n v).getLsbD k =
      if off ≤ k ∧ k < off + n then v.getLsbD (k - off) else old.getLsbD k := by
  rw [replaceField, BitVec.getLsbD_or, BitVec.getLsbD_and, BitVec.getLsbD_not, getLsbD_fieldMask,
    BitVec.getLsbD_shiftLeft]
  by_cases ho : off ≤ k
  · by_cases hn : k < off + n
    · simp only [hk, ho, hn, Nat.not_lt.2 ho, decide_true, decide_false, Bool.and_self, Bool.not_true, Bool.and_false,
        Bool.not_false, Bool.true_and, Bool.false_or, and_self, if_true]
    · have hz : v.getLsbD (k - off) = false := getLsbD_eq_false_of_lt hv (by omega)
      simp only [hk, hn, hz, decide_true, decide_false, Bool.and_false, Bool.not_false, Bool.and_true, Bool.or_false,
        and_false, if_false]
  · simp only [hk, ho, Nat.lt_of_not_le ho, decide_true, decide_false, Bool.and_false, Bool.false_and, Bool.not_false,
      Bool.not_true, Bool.and_true, Bool.or_false, false_and, if_false]

theorem getLsbD_splitValue_low (v : Word) (low k : Nat) :
    (splitValue v low).1.getLsbD k = (decide (k < low) && v.getLsbD k) := by
  rw [splitValue, BitVec.getLsbD_and, getLsbD_mask]
  by_cases hk : k < 64
  · simp only [hk, decide_true, Bool.true_and, Bool.and_comm]
  · rw [BitVec.getLsbD_of_ge v k (by omega), Bool.false_and, Bool.and_false]

theorem getLsbD_splitValue_high (v : Word) (low k : Nat) :
    (splitValue v low).2.getLsbD k = v.getLsbD (low + k) := by simp [splitValue]

/-- The low fragment fits in `low` bits (R114). -/
theorem splitValue_low_lt (v : Word) (low : Nat) : (splitValue v low).1.toNat < 2 ^ low :=
  toNat_lt_of_getLsbD fun k hk => by simp [getLsbD_splitValue_low, Nat.not_lt.2 hk]

/-- The carry of a value of `low + high` bits fits in `high` bits (R114). -/
theorem splitValue_high_lt {v : Word} {low high : Nat} (hv : v.toNat < 2 ^ (low + high)) :
    (splitValue v low).2.toNat < 2 ^ high :=
  toNat_lt_of_getLsbD fun k hk => by
    rw [getLsbD_splitValue_high]
    exact getLsbD_eq_false_of_lt hv (by omega)

theorem getLsbD_composeValue {lo : Word} {low : Nat} (hlo : lo.toNat < 2 ^ low) (hi : Word) (k : Nat) (hk : k < 64) :
    (composeValue lo hi low).getLsbD k = if k < low then lo.getLsbD k else hi.getLsbD (k - low) := by
  rw [composeValue, BitVec.getLsbD_or, BitVec.getLsbD_shiftLeft]
  by_cases h : k < low
  · simp only [hk, h, decide_true, Bool.not_true, Bool.and_false, Bool.false_and, Bool.false_or, if_true]
  · have hz : lo.getLsbD k = false := getLsbD_eq_false_of_lt hlo (by omega)
    simp only [hk, h, hz, decide_true, decide_false, Bool.not_false, Bool.true_and, Bool.or_false, if_false]

end Sys2Proof.Machine
end

