-- ==== Sys2Proof/Laws/Ops.lean ====
section
/-! SUPPORT. What each shared operation can do, said once: cell accesses, extraction and insertion at a Location,
and the ways a command ends. -/

namespace Sys2Proof.Machine

/-! ### Cell accesses -/

theorem cellRead_inside {s : State} {c : Nat} (h : c < capacityOf s) :
    cellRead s c = .ok (Memory.read s.cells c) := if_pos h

theorem cellWrite_inside {s : State} {c : Nat} (h : c < capacityOf s) (v : Word) :
    cellWrite s c v = .ok { s with cells := Memory.write s.cells c v } := if_pos h

/-- A cell read that answers reads an existing cell and gives what it holds. -/
theorem cellRead_eq_ok {s : State} {c : Nat} {v : Word} (h : cellRead s c = .ok v) :
    c < capacityOf s ∧ v = Memory.read s.cells c := by
  unfold cellRead at h
  split at h
  · exact ⟨by assumption, (Except.ok.inj h).symm⟩
  · cases h

/-- A cell write that answers writes an existing cell and nothing else. -/
theorem cellWrite_eq_ok {s t : State} {c : Nat} {v : Word} (h : cellWrite s c v = .ok t) :
    c < capacityOf s ∧ t = { s with cells := Memory.write s.cells c v } := by
  unfold cellWrite at h
  split at h
  · exact ⟨by assumption, (Except.ok.inj h).symm⟩
  · cases h

theorem maskedRead_inside {s : State} {c : Nat} (h : c < capacityOf s) (off n : Nat) :
    maskedRead s c off n = .ok (extractField (Memory.read s.cells c) off n) := by
  simp [maskedRead, cellRead_inside h, bind, Except.bind, pure, Except.pure]

theorem maskedWrite_inside {s : State} {c : Nat} (h : c < capacityOf s) (off n : Nat) (v : Word) :
    maskedWrite s c off n v =
      .ok { s with cells := Memory.write s.cells c (replaceField (Memory.read s.cells c) off n v) } := by
  simp [maskedWrite, cellRead_inside h, cellWrite_inside h, bind, Except.bind]

/-- A masked write that answers changes one existing cell and nothing else. -/
theorem maskedWrite_eq_ok {s t : State} {c off n : Nat} {v : Word} (h : maskedWrite s c off n v = .ok t) :
    c < capacityOf s ∧
      t = { s with cells := Memory.write s.cells c (replaceField (Memory.read s.cells c) off n v) } := by
  unfold maskedWrite at h
  cases hr : cellRead s c with
  | error f => simp [hr, bind, Except.bind] at h
  | ok old =>
    obtain ⟨_, rfl⟩ := cellRead_eq_ok hr
    simp only [hr, bind, Except.bind] at h
    exact cellWrite_eq_ok h

/-! ### Extraction and insertion at a Location -/

/-- The Location is one of the shapes R92 and R93 give an element of `w` bits, inside the first `cap` cells. -/
def locationFits (w cap : Nat) : Location → Prop
  | .single cell bitOffset => cell < cap ∧ bitOffset + w ≤ 64
  | .spanning lowCell lowBits highCell highBits =>
    highCell = lowCell + 1 ∧ highCell < cap ∧ 1 ≤ lowBits ∧ lowBits ≤ 63 ∧ lowBits + highBits = w ∧ highBits ≤ 63

/-- Extraction at a Location that fits answers with the bits that stand there (R116). -/
theorem extractAt_spec {s : State} {l : Location} {w : Nat} (h : locationFits w (capacityOf s) l) :
    ∃ v, extractAt s l w = .ok v ∧
      ∀ k, k < 64 → v.getLsbD k = (decide (k < w) && cellBit s (locationPlace l k)) := by
  cases l with
  | single cell bitOffset =>
    obtain ⟨hc, _⟩ := h
    refine ⟨_, maskedRead_inside hc _ _, fun k _ => ?_⟩
    simp [getLsbD_extractField, cellBit, locationPlace]
  | spanning lowCell lowBits highCell highBits =>
    obtain ⟨hh, hc, hl1, hl2, hw, hhi⟩ := h
    have hlow : lowCell < capacityOf s := by omega
    refine ⟨composeValue (extractField (Memory.read s.cells lowCell) (64 - lowBits) lowBits)
      (extractField (Memory.read s.cells highCell) 0 highBits) lowBits, ?_, fun k hk => ?_⟩
    · simp [extractAt, maskedRead_inside hlow, maskedRead_inside hc, bind, Except.bind, pure, Except.pure]
    · rw [getLsbD_composeValue (extractField_lt _ _ _) _ _ hk]
      by_cases hkl : k < lowBits
      · have hkw : k < w := by omega
        simp [getLsbD_extractField, cellBit, locationPlace, hkl, hkw]
      · have hiff : (k - lowBits < highBits) ↔ k < w := by omega
        simp [getLsbD_extractField, cellBit, locationPlace, hkl, hiff]

/-- What one masked write to an existing cell of a canonical memory does to every bit (R113). -/
theorem maskedWrite_spec {s : State} (hm : Memory.wf s.cells = true) {c n : Nat} (hc : c < capacityOf s) {v : Word}
    (hv : v.toNat < 2 ^ n) (off : Nat) :
    ∃ m, maskedWrite s c off n v = .ok { s with cells := m } ∧ Memory.wf m = true ∧
      ∀ p : Nat × Nat, p.2 < 64 → cellBit { s with cells := m } p =
        if p.1 = c ∧ off ≤ p.2 ∧ p.2 < off + n then v.getLsbD (p.2 - off) else cellBit s p := by
  refine ⟨_, maskedWrite_inside hc off n v, Memory.write_wf hm _ _, fun p hp => ?_⟩
  simp only [cellBit, Memory.read_write hm]
  by_cases hpc : p.1 = c
  · rw [if_pos hpc, getLsbD_replaceField hv _ _ _ hp]
    simp [hpc]
  · simp [hpc]

/-- No cell has a bit at or above 64. -/
theorem cellBit_of_ge (s : State) {p : Nat × Nat} (hp : 64 ≤ p.2) : cellBit s p = false :=
  BitVec.getLsbD_of_ge _ _ hp

/-- Insertion at a Location that fits writes the bits of the value there and touches nothing else (R117, R119). -/
theorem insertAt_spec {s : State} {l : Location} {w : Nat} {v : Word} (hm : Memory.wf s.cells = true)
    (h : locationFits w (capacityOf s) l) (hv : v.toNat < 2 ^ w) :
    ∃ m, insertAt s l w v = .ok { s with cells := m } ∧ Memory.wf m = true ∧
      (∀ k, k < w → cellBit { s with cells := m } (locationPlace l k) = v.getLsbD k) ∧
      ∀ p, (∀ k, k < w → locationPlace l k ≠ p) → cellBit { s with cells := m } p = cellBit s p := by
  cases l with
  | single cell bitOffset =>
    obtain ⟨hc, hb⟩ := h
    obtain ⟨m, h1, h2, h3⟩ := maskedWrite_spec hm hc hv bitOffset
    refine ⟨m, h1, h2, fun k hk => ?_, fun p hp => ?_⟩
    · rw [h3 _ (by simp only [locationPlace]; omega)]
      simp [locationPlace, hk]
    · by_cases h64 : p.2 < 64
      · rw [h3 _ h64, if_neg]
        rintro ⟨h1, h2, h3⟩
        exact hp (p.2 - bitOffset) (by omega) (Prod.ext h1.symm (by simp only [locationPlace]; omega))
      · rw [cellBit_of_ge _ (by omega), cellBit_of_ge _ (by omega)]
  | spanning lowCell lowBits highCell highBits =>
    obtain ⟨hh, hc, hl1, hl2, hw, hhi⟩ := h
    have hv2 : (splitValue v lowBits).2.toNat < 2 ^ highBits := splitValue_high_lt (by rw [hw]; exact hv)
    obtain ⟨m1, h1, hm1, hb1⟩ :=
      maskedWrite_spec hm (by omega : lowCell < capacityOf s) (splitValue_low_lt v lowBits) (64 - lowBits)
    obtain ⟨m, h2, hm2, hb2⟩ := maskedWrite_spec (s := { s with cells := m1 }) hm1 hc hv2 0
    refine ⟨m, ?_, hm2, fun k hk => ?_, fun p hp => ?_⟩
    · simp only [insertAt, h1, bind, Except.bind]
      exact h2
    · by_cases hkl : k < lowBits
      · simp only [locationPlace, if_pos hkl]
        refine (hb2 _ (by simp only []; omega)).trans ?_
        rw [if_neg (by omega), hb1 _ (by simp only []; omega), if_pos (by omega), getLsbD_splitValue_low]
        simp [hkl]
      · simp only [locationPlace, if_neg hkl]
        refine (hb2 _ (by simp only []; omega)).trans ?_
        rw [if_pos (by omega), getLsbD_splitValue_high]
        exact congrArg _ (by omega)
    · by_cases h64 : p.2 < 64
      · refine (hb2 p h64).trans ?_
        rw [if_neg, hb1 p h64, if_neg]
        · rintro ⟨h1, h2, h3⟩
          refine hp (p.2 - (64 - lowBits)) (by omega) ?_
          rw [locationPlace, if_pos (by omega)]
          exact Prod.ext h1.symm (by simp only []; omega)
        · rintro ⟨h1, h2, h3⟩
          refine hp (p.2 + lowBits) (by omega) ?_
          rw [locationPlace, if_neg (by omega)]
          exact Prod.ext h1.symm (by simp only []; omega)
      · rw [cellBit_of_ge _ (by omega), cellBit_of_ge _ (by omega)]

/-- Whatever the Location, an insertion that answers changes nothing but cells, and keeps their canonical form. -/
theorem insertAt_eq_ok {s t : State} {l : Location} {w : Nat} {v : Word} (h : insertAt s l w v = .ok t) :
    ∃ m, t = { s with cells := m } ∧ (Memory.wf s.cells = true → Memory.wf m = true) := by
  cases l with
  | single cell bitOffset =>
    obtain ⟨_, rfl⟩ := maskedWrite_eq_ok h
    exact ⟨_, rfl, fun hm => Memory.write_wf hm _ _⟩
  | spanning lowCell lowBits highCell highBits =>
    simp only [insertAt] at h
    cases hs1 : maskedWrite s lowCell (64 - lowBits) lowBits (splitValue v lowBits).1 with
    | error f => simp [hs1, bind, Except.bind] at h
    | ok s' =>
      simp only [hs1, bind, Except.bind] at h
      obtain ⟨_, rfl⟩ := maskedWrite_eq_ok hs1
      obtain ⟨_, rfl⟩ := maskedWrite_eq_ok h
      exact ⟨_, rfl, fun hm => Memory.write_wf (Memory.write_wf hm _ _) _ _⟩

/-! ### How a command ends -/

theorem respondOk_eq (d0 d1 : Word) (s : State) : respondOk d0 d1 s = .next (answered s 0x00#8 d0 d1) := rfl

theorem raiseError_eq (e : CommandError) (s : State) :
    raiseError e s = .next (answered s (errorCode e) 0#64 0#64) := rfl

theorem whenConfigured_of_true {s : State} (h : s.configured = true) (k : Host.Outcome State Fault Refusal) :
    whenConfigured s k = k := if_pos h

theorem whenConfigured_of_false {s : State} (h : s.configured = false) (k : Host.Outcome State Fault Refusal) :
    whenConfigured s k = .next (answered s 0x06#8 0#64 0#64) := by simp [whenConfigured, h, raiseError_eq, errorCode]

theorem widthValid_iff {w : Nat} : widthValid w = true ↔ 1 ≤ w ∧ w ≤ 64 := by simp [widthValid]

/-- The three ways construction ends, in the order of its checks (R150, R154). -/
theorem configure_cases (lay : Layout) (L w : Word) (s : State) :
    (¬ (1 ≤ w.toNat ∧ w.toNat ≤ 64) ∧ configure lay L w s = .next (answered s 0x01#8 0#64 0#64)) ∨
    ((1 ≤ w.toNat ∧ w.toNat ≤ 64) ∧ s.maxCells < capacityCells lay L.toNat w.toNat ∧
      configure lay L w s = .next (answered s 0x04#8 0#64 0#64)) ∨
    ((1 ≤ w.toNat ∧ w.toNat ≤ 64) ∧ capacityCells lay L.toNat w.toNat ≤ s.maxCells ∧
      configure lay L w s = .next (answered (construct lay L w.toNat s) 0x00#8 0#64 0#64)) := by
  unfold configure
  by_cases hw : widthValid w.toNat = true
  · rw [if_neg (by simp [hw])]
    by_cases hc : s.maxCells < capacityCells lay L.toNat w.toNat
    · exact .inr (.inl ⟨widthValid_iff.1 hw, hc, by rw [if_pos hc, raiseError_eq]; rfl⟩)
    · exact .inr (.inr ⟨widthValid_iff.1 hw, by omega, by rw [if_neg hc, respondOk_eq]⟩)
  · exact .inl ⟨fun h => hw (widthValid_iff.2 h), by rw [if_pos (by simpa using hw), raiseError_eq]; rfl⟩

end Sys2Proof.Machine
end

