-- ==== Sys2Proof/Laws/Commands.lean ====
section
/-! SUPPORT. What each command can do, said once: every way its meaning can end, with the condition of each, in every
state, well-formed or not. -/

namespace Sys2Proof.Machine

variable (s : State) (a b : Word)

/-- CFGA ends in the three ways of construction (R151). -/
theorem execCfga_eq : exec (.cfga a b) s = configure .aligned a b s := rfl

/-- CFGP ends in the three ways of construction (R152). -/
theorem execCfgp_eq : exec (.cfgp a b) s = configure .packed a b s := rfl

/-- The ways GET ends (R130). -/
theorem execGet_cases :
    (s.configured = false ∧ exec (.get a b) s = .next (answered s 0x06#8 0#64 0#64)) ∨
    (s.configured = true ∧ s.length.toNat ≤ a.toNat ∧ exec (.get a b) s = .next (answered s 0x02#8 0#64 0#64)) ∨
    (s.configured = true ∧ a.toNat < s.length.toNat ∧
      ((∃ v, extractAt s (locate s.layout a.toNat s.width) s.width = .ok v ∧
          exec (.get a b) s = .next (answered s 0x00#8 v 0#64)) ∨
        ∃ f, exec (.get a b) s = .fault f)) := by
  cases hc : s.configured with
  | false => exact .inl ⟨rfl, whenConfigured_of_false hc _⟩
  | true =>
    simp only [exec, execGet, whenConfigured_of_true hc]
    by_cases ha : s.length.toNat ≤ a.toNat
    · exact .inr (.inl ⟨trivial, ha, by rw [if_pos ha]; rfl⟩)
    · refine .inr (.inr ⟨trivial, by omega, ?_⟩)
      rw [if_neg ha]
      cases extractAt s (locate s.layout a.toNat s.width) s.width with
      | ok v => exact .inl ⟨v, rfl, rfl⟩
      | error f => exact .inr ⟨f, rfl⟩

/-- The ways SET ends (R131). -/
theorem execSet_cases :
    (s.configured = false ∧ exec (.set a b) s = .next (answered s 0x06#8 0#64 0#64)) ∨
    (s.configured = true ∧ s.length.toNat ≤ a.toNat ∧ exec (.set a b) s = .next (answered s 0x02#8 0#64 0#64)) ∨
    (s.configured = true ∧ a.toNat < s.length.toNat ∧ 2 ^ s.width ≤ b.toNat ∧
      exec (.set a b) s = .next (answered s 0x03#8 0#64 0#64)) ∨
    (s.configured = true ∧ a.toNat < s.length.toNat ∧ b.toNat < 2 ^ s.width ∧
      ((∃ t, insertAt s (locate s.layout a.toNat s.width) s.width b = .ok t ∧
          exec (.set a b) s = .next (answered t 0x00#8 0#64 0#64)) ∨
        ∃ f, exec (.set a b) s = .fault f)) := by
  cases hc : s.configured with
  | false => exact .inl ⟨rfl, whenConfigured_of_false hc _⟩
  | true =>
    simp only [exec, execSet, whenConfigured_of_true hc]
    by_cases ha : s.length.toNat ≤ a.toNat
    · exact .inr (.inl ⟨trivial, ha, by rw [if_pos ha]; rfl⟩)
    · rw [if_neg ha]
      by_cases hb : 2 ^ s.width ≤ b.toNat
      · exact .inr (.inr (.inl ⟨trivial, by omega, hb, by rw [if_pos hb]; rfl⟩))
      · refine .inr (.inr (.inr ⟨trivial, by omega, by omega, ?_⟩))
        rw [if_neg hb]
        cases insertAt s (locate s.layout a.toNat s.width) s.width b with
        | ok t => exact .inl ⟨t, rfl, rfl⟩
        | error f => exact .inr ⟨f, rfl⟩

/-- The ways LEN ends (R155). -/
theorem execLen_cases :
    (s.configured = false ∧ exec (.len a b) s = .next (answered s 0x06#8 0#64 0#64)) ∨
    (s.configured = true ∧ exec (.len a b) s = .next (answered s 0x00#8 s.length 0#64)) := by
  cases hc : s.configured with
  | false => exact .inl ⟨rfl, whenConfigured_of_false hc _⟩
  | true => exact .inr ⟨rfl, whenConfigured_of_true hc _⟩

/-- The ways PAD ends (R106). -/
theorem execPad_cases :
    (s.configured = false ∧ exec (.pad a b) s = .next (answered s 0x06#8 0#64 0#64)) ∨
    (s.configured = true ∧ exec (.pad a b) s =
      .next (answered s 0x00#8 (BitVec.ofNat 64 (paddingBits s.layout s.length.toNat s.width)) 0#64)) := by
  cases hc : s.configured with
  | false => exact .inl ⟨rfl, whenConfigured_of_false hc _⟩
  | true => exact .inr ⟨rfl, whenConfigured_of_true hc _⟩

/-- The ways CAP ends (R105). -/
theorem execCap_cases :
    (s.configured = false ∧ exec (.cap a b) s = .next (answered s 0x06#8 0#64 0#64)) ∨
    (s.configured = true ∧
      exec (.cap a b) s = .next (answered s 0x00#8 (BitVec.ofNat 64 (capacityOf s)) 0#64)) := by
  cases hc : s.configured with
  | false => exact .inl ⟨rfl, whenConfigured_of_false hc _⟩
  | true => exact .inr ⟨rfl, whenConfigured_of_true hc _⟩

/-- The ways LOC ends (R104). -/
theorem execLoc_cases :
    (s.configured = false ∧ exec (.loc a b) s = .next (answered s 0x06#8 0#64 0#64)) ∨
    (s.configured = true ∧ s.length.toNat ≤ a.toNat ∧ exec (.loc a b) s = .next (answered s 0x02#8 0#64 0#64)) ∨
    (s.configured = true ∧ a.toNat < s.length.toNat ∧
      exec (.loc a b) s = .next (answered s 0x00#8 (locationCell (locate s.layout a.toNat s.width))
        (locationWord s.width (locate s.layout a.toNat s.width)))) := by
  cases hc : s.configured with
  | false => exact .inl ⟨rfl, whenConfigured_of_false hc _⟩
  | true =>
    simp only [exec, execLoc, whenConfigured_of_true hc]
    by_cases ha : s.length.toNat ≤ a.toNat
    · exact .inr (.inl ⟨trivial, ha, by rw [if_pos ha]; rfl⟩)
    · exact .inr (.inr ⟨trivial, by omega, by rw [if_neg ha]; rfl⟩)

/-- The ways RDC ends; the fault of its cell read cannot occur, in any state (R100, R156). -/
theorem execRdc_cases :
    (s.configured = false ∧ exec (.rdc a b) s = .next (answered s 0x06#8 0#64 0#64)) ∨
    (s.configured = true ∧ capacityOf s ≤ a.toNat ∧ exec (.rdc a b) s = .next (answered s 0x07#8 0#64 0#64)) ∨
    (s.configured = true ∧ a.toNat < capacityOf s ∧
      exec (.rdc a b) s = .next (answered s 0x00#8 (Memory.read s.cells a.toNat) 0#64)) := by
  cases hc : s.configured with
  | false => exact .inl ⟨rfl, whenConfigured_of_false hc _⟩
  | true =>
    simp only [exec, execRdc, whenConfigured_of_true hc]
    by_cases ha : capacityOf s ≤ a.toNat
    · exact .inr (.inl ⟨trivial, ha, by rw [if_pos ha]; rfl⟩)
    · exact .inr (.inr ⟨trivial, by omega, by rw [if_neg ha, cellRead_inside (by omega)]; rfl⟩)

/-- A command with a reserved opcode raises IllegalCommand, in any state (R66). -/
theorem exec_reserved {i : Instr} (h : opcodeOf i = 0x00#8 ∨ 0x0A#8 ≤ opcodeOf i) (s : State) :
    exec i s = .next (answered s 0x05#8 0#64 0#64) := by
  cases i <;> first | rfl | (exfalso; revert h; simp only [opcodeOf]; decide)

/-- A fresh buffer that fits is well-formed (R31, R150). -/
theorem construct_wellFormed {s : State} (hs : StateInv s) {lay : Layout} {L : Word} {w : Nat} (hw : 1 ≤ w ∧ w ≤ 64)
    (hcap : capacityCells lay L.toNat w ≤ s.maxCells) : StateInv (construct lay L w s) where
  maxCells_legal := hs.maxCells_legal
  cells_canonical := rfl
  width_legal _ := hw
  cells_inside _ _ _ := rfl
  capacity_fits _ := hcap
  unused_zero _ _ _ := by simp [cellBit]

/-- An answer changes nothing that well-formedness speaks of. -/
theorem answered_wellFormed {s : State} (hs : StateInv s) (st : BitVec 8) (d0 d1 : Word) :
    StateInv (answered s st d0 d1) :=
  ⟨hs.1, hs.2, hs.3, hs.4, hs.5, hs.6⟩

end Sys2Proof.Machine
end

