-- ==== Sys2Proof/Laws/Encoding.lean ====
section
/-! SUPPORT. The fields of command words and response words (spec/30_encoding.md rules R60, R61). -/

namespace Sys2Proof

section Fields
variable (op : Opcode) (a b : Word)

theorem getLsbD_commandWord (k : Nat) :
    (commandWord op a b).getLsbD k =
      if k < 64 then b.getLsbD k else if k - 64 < 64 then a.getLsbD (k - 64) else op.getLsbD (k - 64 - 64) := by
  simp only [commandWord, BitVec.getLsbD_append]

@[simp] theorem opcodeField_commandWord : opcodeField (commandWord op a b) = op := by
  apply BitVec.eq_of_getLsbD_eq
  intro i hi
  rw [opcodeField, BitVec.getLsbD_extractLsb', getLsbD_commandWord, if_neg (by omega), if_neg (by omega)]
  simp only [hi, decide_true, Bool.true_and]
  exact congrArg _ (by omega)

@[simp] theorem operandA_commandWord : operandA (commandWord op a b) = a := by
  apply BitVec.eq_of_getLsbD_eq
  intro i hi
  rw [operandA, BitVec.getLsbD_extractLsb', getLsbD_commandWord, if_neg (by omega), if_pos (by omega)]
  simp only [hi, decide_true, Bool.true_and]
  exact congrArg _ (by omega)

@[simp] theorem operandB_commandWord : operandB (commandWord op a b) = b := by
  apply BitVec.eq_of_getLsbD_eq
  intro i hi
  rw [operandB, BitVec.getLsbD_extractLsb', getLsbD_commandWord, if_pos (by omega)]
  simp only [hi, decide_true, Bool.true_and]
  exact congrArg _ (by omega)

end Fields

/-- A command word is put together from its three fields. -/
theorem commandWord_fields (w : CommandWord) : commandWord (opcodeField w) (operandA w) (operandB w) = w := by
  apply BitVec.eq_of_getLsbD_eq
  intro i hi
  rw [getLsbD_commandWord]
  simp only [opcodeField, operandA, operandB, BitVec.getLsbD_extractLsb']
  split
  · simp [*]
  · split
    · rw [show 64 + (i - 64) = i by omega]; simp [*]
    · rw [show 128 + (i - 64 - 64) = i by omega, show decide (i - 64 - 64 < 8) = true by simp; omega, Bool.true_and]

@[simp] theorem opcodeField_encode (i : Instr) : opcodeField (encode i) = opcodeOf i := opcodeField_commandWord _ _ _

@[simp] theorem operandA_encode (i : Instr) : operandA (encode i) = (operandsOf i).1 := operandA_commandWord _ _ _

@[simp] theorem operandB_encode (i : Instr) : operandB (encode i) = (operandsOf i).2 := operandB_commandWord _ _ _

namespace Machine

section ResponseFields
variable (st : BitVec 8) (d0 d1 : Word)

/-- A response word has the layout of a command word, its status in the place of the opcode (R60, R61). -/
theorem responseWord_eq_commandWord : responseWord st d0 d1 = commandWord st d0 d1 := rfl

@[simp] theorem statusField_responseWord : statusField (responseWord st d0 d1) = st := opcodeField_commandWord st d0 d1

@[simp] theorem d0Field_responseWord : d0Field (responseWord st d0 d1) = d0 := operandA_commandWord st d0 d1

@[simp] theorem d1Field_responseWord : d1Field (responseWord st d0 d1) = d1 := operandB_commandWord st d0 d1

@[simp] theorem statusField_append : statusField (st ++ d0 ++ d1) = st := opcodeField_commandWord st d0 d1

@[simp] theorem d0Field_append : d0Field (st ++ d0 ++ d1) = d0 := operandA_commandWord st d0 d1

@[simp] theorem d1Field_append : d1Field (st ++ d0 ++ d1) = d1 := operandB_commandWord st d0 d1

end ResponseFields

/-- Two answers to one state are the same answer only if all their fields agree. -/
theorem answered_inj {s : State} {st st' : BitVec 8} {d0 d0' d1 d1' : Word}
    (h : (answered s st d0 d1).responses = (answered s st' d0' d1').responses) : st = st' ∧ d0 = d0' ∧ d1 = d1' := by
  have h' : st ++ d0 ++ d1 = st' ++ d0' ++ d1' := by simpa [answered] using h
  have h1 := congrArg statusField h'
  have h2 := congrArg d0Field h'
  have h3 := congrArg d1Field h'
  rw [statusField_append, statusField_append] at h1
  rw [d0Field_append, d0Field_append] at h2
  rw [d1Field_append, d1Field_append] at h3
  exact ⟨h1, h2, h3⟩

end Machine

end Sys2Proof
end

