-- ==== Sys2Proof/Laws/PerInstr.lean ====
section
/-! SUPPORT. Statements about every command, one lemma per constructor of `Instr`: the word of a well-formed command
stands in its row of spec/opcode_table.json and carries its operands (spec/30_encoding.md rules R60, R62). -/

namespace Sys2Proof.Laws

open Sys2Proof

/-- Masking a command word's opcode leaves nothing of its operands. -/
theorem commandWord_and_opcodeMask (op mask : Opcode) (a b : Word) :
    commandWord op a b &&& commandWord mask 0#64 0#64 = commandWord (op &&& mask) 0#64 0#64 := by
  apply BitVec.eq_of_getLsbD_eq
  intro k _
  rw [BitVec.getLsbD_and, getLsbD_commandWord, getLsbD_commandWord, getLsbD_commandWord]
  split
  · simp
  · split <;> simp

/-- A command word stands in the row whose opcode byte its own opcode matches. -/
theorem matches_of_opcodeInRow {op mask pattern : Opcode} (h : opcodeInRow op mask pattern = true) (a b : Word) :
    commandWord op a b &&& commandWord mask 0#64 0#64 = commandWord pattern 0#64 0#64 := by
  rw [commandWord_and_opcodeMask, beq_iff_eq.1 h]

/-- A command word of one assigned opcode stands in that opcode's row. -/
theorem matches_opcode (op : Opcode) (a b : Word) :
    commandWord op a b &&& commandWord 0xFF#8 0#64 0#64 = commandWord op 0#64 0#64 :=
  matches_of_opcodeInRow (beq_iff_eq.2 (BitVec.and_allOnes (x := op))) a b

/-- The command word of `i` matches the row of `i`, and its two operand fields are the operands of `i`. -/
def EncodedInRow.Statement (i : Instr) : Prop :=
  i.wellFormed = true →
    encode i &&& (tableRow (rowOf i)).2 = (tableRow (rowOf i)).1 ∧
    operandA (encode i) = (operandsOf i).1 ∧ operandB (encode i) = (operandsOf i).2

theorem EncodedInRow.cfga (a b : Word) : EncodedInRow.Statement (.cfga a b) := fun _ =>
  ⟨matches_opcode 0x01#8 a b, operandA_encode _, operandB_encode _⟩

theorem EncodedInRow.cfgp (a b : Word) : EncodedInRow.Statement (.cfgp a b) := fun _ =>
  ⟨matches_opcode 0x02#8 a b, operandA_encode _, operandB_encode _⟩

theorem EncodedInRow.get (a b : Word) : EncodedInRow.Statement (.get a b) := fun _ =>
  ⟨matches_opcode 0x03#8 a b, operandA_encode _, operandB_encode _⟩

theorem EncodedInRow.set (a b : Word) : EncodedInRow.Statement (.set a b) := fun _ =>
  ⟨matches_opcode 0x04#8 a b, operandA_encode _, operandB_encode _⟩

theorem EncodedInRow.len (a b : Word) : EncodedInRow.Statement (.len a b) := fun _ =>
  ⟨matches_opcode 0x05#8 a b, operandA_encode _, operandB_encode _⟩

theorem EncodedInRow.pad (a b : Word) : EncodedInRow.Statement (.pad a b) := fun _ =>
  ⟨matches_opcode 0x06#8 a b, operandA_encode _, operandB_encode _⟩

theorem EncodedInRow.cap (a b : Word) : EncodedInRow.Statement (.cap a b) := fun _ =>
  ⟨matches_opcode 0x07#8 a b, operandA_encode _, operandB_encode _⟩

theorem EncodedInRow.loc (a b : Word) : EncodedInRow.Statement (.loc a b) := fun _ =>
  ⟨matches_opcode 0x08#8 a b, operandA_encode _, operandB_encode _⟩

theorem EncodedInRow.rdc (a b : Word) : EncodedInRow.Statement (.rdc a b) := fun _ =>
  ⟨matches_opcode 0x09#8 a b, operandA_encode _, operandB_encode _⟩

theorem EncodedInRow.reserved00 (a b : Word) : EncodedInRow.Statement (.reserved00 a b) := fun _ =>
  ⟨matches_opcode 0x00#8 a b, operandA_encode _, operandB_encode _⟩

theorem EncodedInRow.reserved0A (op : Opcode) (a b : Word) : EncodedInRow.Statement (.reserved0A op a b) := fun h =>
  ⟨matches_of_opcodeInRow (mask := 0xFE#8) h a b, operandA_encode _, operandB_encode _⟩

theorem EncodedInRow.reserved0C (op : Opcode) (a b : Word) : EncodedInRow.Statement (.reserved0C op a b) := fun h =>
  ⟨matches_of_opcodeInRow (mask := 0xFC#8) h a b, operandA_encode _, operandB_encode _⟩

theorem EncodedInRow.reserved10 (op : Opcode) (a b : Word) : EncodedInRow.Statement (.reserved10 op a b) := fun h =>
  ⟨matches_of_opcodeInRow (mask := 0xF0#8) h a b, operandA_encode _, operandB_encode _⟩

theorem EncodedInRow.reserved20 (op : Opcode) (a b : Word) : EncodedInRow.Statement (.reserved20 op a b) := fun h =>
  ⟨matches_of_opcodeInRow (mask := 0xE0#8) h a b, operandA_encode _, operandB_encode _⟩

theorem EncodedInRow.reserved40 (op : Opcode) (a b : Word) : EncodedInRow.Statement (.reserved40 op a b) := fun h =>
  ⟨matches_of_opcodeInRow (mask := 0xC0#8) h a b, operandA_encode _, operandB_encode _⟩

theorem EncodedInRow.reserved80 (op : Opcode) (a b : Word) : EncodedInRow.Statement (.reserved80 op a b) := fun h =>
  ⟨matches_of_opcodeInRow (mask := 0x80#8) h a b, operandA_encode _, operandB_encode _⟩

end Sys2Proof.Laws
end

