-- ==== Sys2Proof/Laws/Run.lean ====
section
/-! SUPPORT. One step and runs of several, unfolded once (spec/70_reset_and_hazards.md rule R198). -/

namespace Sys2Proof.Machine

/-- With no move pending a step changes nothing. -/
theorem step_idle {s : State} (h : s.pending = []) : step s = .next s := by simp only [step, h, idle]

/-- A pending reset leaves the unit in its reset state; the ports and `MAX_CELLS` are untouched. -/
theorem step_reset {s : State} {rest : List HostMove} (h : s.pending = .reset :: rest) :
    step s = .next { State.reset with maxCells := s.maxCells, pending := rest, responses := s.responses } := by
  simp only [step, h, resetUnit, acceptMove, List.tail_cons]
  rfl

/-- A reset that cuts a command short leaves the unit as a reset does. -/
theorem step_commandCutShort {s : State} {w : CommandWord} {rest : List HostMove}
    (h : s.pending = .commandCutShort w :: rest) :
    step s = .next { State.reset with maxCells := s.maxCells, pending := rest, responses := s.responses } := by
  simp only [step, h, cutShort, resetUnit, acceptMove, List.tail_cons]
  rfl

/-- A pending command is taken from the port and executed. -/
theorem step_command {s : State} {w : CommandWord} {rest : List HostMove} (h : s.pending = .command w :: rest) :
    step s = exec (decode w) { s with pending := rest } := by
  simp only [step, h, acceptMove, List.tail_cons]

theorem run_zero (s : State) : Host.Core.run Sys2Proof.core 0 s = .next s := rfl

/-- A run of one step more, when the first step has a next state. -/
theorem run_succ_of_next {s t : State} (h : step s = .next t) (n : Nat) :
    Host.Core.run Sys2Proof.core (n + 1) s = Host.Core.run Sys2Proof.core n t := by
  have h' : Sys2Proof.core.step s = .next t := h
  simp only [Host.Core.run, h']

/-- The first step of a run that ends in a next state has a next state, from which the rest runs. -/
theorem run_succ_inv {s u : State} {n : Nat} (h : Host.Core.run Sys2Proof.core (n + 1) s = .next u) :
    ∃ t, step s = .next t ∧ Host.Core.run Sys2Proof.core n t = .next u := by
  cases hs : step s with
  | next t => exact ⟨t, rfl, (run_succ_of_next hs n).symm.trans h⟩
  | fault r =>
    have hs' : Sys2Proof.core.step s = .fault r := hs
    simp only [Host.Core.run, hs'] at h
    cases h
  | refused r =>
    have hs' : Sys2Proof.core.step s = .refused r := hs
    simp only [Host.Core.run, hs'] at h
    cases h

end Sys2Proof.Machine
end

