-- ==== Sys2Proof/Tests/Slice0.lean ====
section
/-! SUPPORT. The model's own tests. Every expected word and cell is taken from spec/95_test_vectors.md (X, V and P
name its vectors) or worked out by hand from the rule named; the second half shows, for every obligation with
hypotheses, concrete values that meet them all. -/

namespace Sys2Proof.Tests

open Sys2Proof Sys2Proof.Machine

/-! ### Helpers -/

/-- The state right after a successful configuration of the reset unit (R150). -/
def fresh (lay : Layout) (L w : Nat) : State := construct lay (BitVec.ofNat 64 L) w State.reset

/-- The state of V3 before step 5: two neighbours of the spanning element 8 are set. -/
def neighbours : State := { fresh .packed 16 37 with cells := [(4, 0x000000AAAAAAAAA8#64), (5, 0x0001555555554000#64)] }

/-- The last response a command produced. -/
def lastResponse : Host.Outcome State Fault Refusal → Option ResponseWord
  | .next t => t.responses.getLast?
  | _ => none

/-- The cells a command leaves. -/
def cellsAfter : Host.Outcome State Fault Refusal → Option Memory
  | .next t => some t.cells
  | _ => none

/-- The registers a command leaves. -/
def registersAfter : Host.Outcome State Fault Refusal → Option (Bool × Layout × Nat × Word)
  | .next t => some (t.configured, t.layout, t.width, t.length)
  | _ => none

/-! ### Well-formed commands: a reserved row refuses every opcode that is not its own (R66) -/

theorem test_wellFormed_refuses_reserved0A : (Instr.reserved0A 0x0C#8 0#64 0#64).wellFormed = false := by decide
theorem test_wellFormed_refuses_reserved0C : (Instr.reserved0C 0x0B#8 0#64 0#64).wellFormed = false := by decide
theorem test_wellFormed_refuses_reserved10 : (Instr.reserved10 0x0F#8 0#64 0#64).wellFormed = false := by decide
theorem test_wellFormed_refuses_reserved20 : (Instr.reserved20 0x40#8 0#64 0#64).wellFormed = false := by decide
theorem test_wellFormed_refuses_reserved40 : (Instr.reserved40 0x80#8 0#64 0#64).wellFormed = false := by decide
theorem test_wellFormed_refuses_reserved80 : (Instr.reserved80 0x7F#8 0#64 0#64).wellFormed = false := by decide
theorem test_wellFormed_accepts_the_ends_of_the_rows :
    (Instr.reserved0A 0x0B#8 0#64 0#64).wellFormed && (Instr.reserved0C 0x0F#8 0#64 0#64).wellFormed &&
    (Instr.reserved10 0x1F#8 0#64 0#64).wellFormed && (Instr.reserved20 0x3F#8 0#64 0#64).wellFormed &&
    (Instr.reserved40 0x7F#8 0#64 0#64).wellFormed && (Instr.reserved80 0xFF#8 0#64 0#64).wellFormed = true := by decide

/-! ### Decoding: one word of every constructor, written out from R60 and R62 -/

theorem test_decode_cfga : decode 0x01_0000000000001000_0000000000000005#136 = .cfga 4096#64 5#64 := by decide
theorem test_decode_cfgp : decode 0x02_000000000000000A_0000000000000041#136 = .cfgp 10#64 65#64 := by decide
theorem test_decode_get : decode 0x03_0000000000000015_0000000000000000#136 = .get 21#64 0#64 := by decide
theorem test_decode_set : decode 0x04_0000000000000008_000000123456789A#136 = .set 8#64 0x123456789A#64 := by decide
theorem test_decode_len :
    decode 0x05_DEADBEEFDEADBEEF_0123456789ABCDEF#136 = .len 0xDEADBEEFDEADBEEF#64 0x0123456789ABCDEF#64 := by decide
theorem test_decode_pad : decode 0x06_0000000000000000_0000000000000000#136 = .pad 0#64 0#64 := by decide
theorem test_decode_cap : decode 0x07_0000000000000000_0000000000000000#136 = .cap 0#64 0#64 := by decide
theorem test_decode_loc : decode 0x08_0000000000000015_0000000000000000#136 = .loc 21#64 0#64 := by decide
theorem test_decode_rdc : decode 0x09_0000000000000001_0000000000000000#136 = .rdc 1#64 0#64 := by decide
theorem test_decode_reserved00 : decode 0x00_0000000000000000_0000000000000000#136 = .reserved00 0#64 0#64 := by decide
theorem test_decode_reserved0A :
    decode 0x0B_8000000000000000_0000000000000001#136 = .reserved0A 0x0B#8 0x8000000000000000#64 1#64 := by decide
theorem test_decode_reserved0C : decode 0x0D_0000000000000000_0000000000000000#136 = .reserved0C 0x0D#8 0#64 0#64 := by
  decide
theorem test_decode_reserved10 : decode 0x1A_0000000000000000_0000000000000000#136 = .reserved10 0x1A#8 0#64 0#64 := by
  decide
theorem test_decode_reserved20 : decode 0x25_0000000000000000_0000000000000000#136 = .reserved20 0x25#8 0#64 0#64 := by
  decide
theorem test_decode_reserved40 : decode 0x5A_0000000000000000_0000000000000000#136 = .reserved40 0x5A#8 0#64 0#64 := by
  decide
theorem test_decode_reserved80 : decode 0x80_0000000000000000_0000000000000000#136 = .reserved80 0x80#8 0#64 0#64 := by
  decide

/-- X5: the words of `SET 21, 21` and `RDC 1`. -/
theorem test_encode : encode (.set 21#64 21#64) = 0x04_0000000000000015_0000000000000015#136 ∧
    encode (.rdc 1#64 0#64) = 0x09_0000000000000001_0000000000000000#136 := by decide

/-- There is one command length (R67); bits above the ones given are 0. -/
theorem test_decodeTableWord :
    decodeTableWord 136 0x03_0000000000000009_FFFFFFFFFFFFFFFF = some (.get 9#64 0xFFFFFFFFFFFFFFFF#64) ∧
    decodeTableWord 144 0x03_0000000000000009_FFFFFFFFFFFFFFFF = none := by decide

/-! ### Cell layout: rows of the tables of spec/95_test_vectors.md section 2.2 and 2.3 -/

theorem test_locateAligned :
    locateAligned 11 5 = .single 0 55 ∧ locateAligned 12 5 = .single 1 0 ∧ locateAligned 4095 5 = .single 341 15 ∧
    locateAligned 20 3 = .single 0 60 ∧ locateAligned 63 1 = .single 0 63 ∧ locateAligned 3 33 = .single 3 0 ∧
    locateAligned (2 ^ 64 - 1) 1 = .single 288230376151711743 63 ∧
    locateAligned (2 ^ 64 - 1) 64 = .single (2 ^ 64 - 1) 0 := by decide

theorem test_locatePacked :
    locatePacked 12 5 = .spanning 0 4 1 1 ∧ locatePacked 21 5 = .single 1 41 ∧ locatePacked 8 37 = .spanning 4 24 5 13 ∧
    locatePacked 21 3 = .spanning 0 1 1 2 ∧ locatePacked 1 63 = .spanning 0 1 1 62 ∧ locatePacked 63 63 = .single 62 1 ∧
    locatePacked (2 ^ 64 - 1) 64 = .single (2 ^ 64 - 1) 0 ∧
    locatePacked (2 ^ 64 - 1) 63 = .single 18158513697557839871 1 := by decide

theorem test_capacityCells :
    capacityCells .aligned 0 5 = 0 ∧ capacityCells .aligned 12 5 = 1 ∧ capacityCells .aligned 13 5 = 2 ∧
    capacityCells .aligned 4096 5 = 342 ∧ capacityCells .packed 4096 5 = 320 ∧ capacityCells .packed 65 63 = 64 ∧
    capacityCells .packed (2 ^ 64 - 1) 1 = 2 ^ 58 ∧ capacityCells .packed (2 ^ 64 - 1) 64 = 2 ^ 64 - 1 := by decide

theorem test_paddingBits :
    paddingBits .aligned 1 5 = 4 ∧ paddingBits .aligned 4096 5 = 1368 ∧ paddingBits .aligned 4096 33 = 126976 ∧
    paddingBits .aligned 16 37 = 432 ∧ paddingBits .packed 16 37 = 0 := by decide

/-! ### Masked words: spec/95_test_vectors.md section 2.4 -/

theorem test_masks :
    mask 0 = 0#64 ∧ mask 37 = 0x1FFFFFFFFF#64 ∧ mask 64 = 0xFFFFFFFFFFFFFFFF#64 ∧
    fieldMask 45 5 = 0x0003E00000000000#64 ∧ fieldMask 40 24 = 0xFFFFFF0000000000#64 := by decide

theorem test_extractField :
    extractField 0xFEDCBA9876543210#64 4 8 = 0x21#64 ∧ extractField 0xFEDCBA9876543210#64 40 24 = 0xFEDCBA#64 ∧
    extractField 0xFEDCBA9876543210#64 13 37 = 0x5D4C3B2A1#64 ∧
    extractField 0xFEDCBA9876543210#64 0 64 = 0xFEDCBA9876543210#64 := by decide

theorem test_replaceField :
    replaceField 0xFEDCBA9876543210#64 4 8 0x00#64 = 0xFEDCBA9876543000#64 ∧
    replaceField 0xFEDCBA9876543210#64 40 24 0xABCDEF#64 = 0xABCDEF9876543210#64 ∧
    replaceField 0xFEDCBA9876543210#64 13 37 0#64 = 0xFEDC000000001210#64 ∧
    replaceField 0xFEDCBA9876543210#64 0 64 1#64 = 1#64 := by decide

theorem test_splitValue :
    splitValue 0x123456789A#64 24 = (0x56789A#64, 0x1234#64) ∧ splitValue 0x1F#64 4 = (0xF#64, 0x1#64) ∧
    splitValue 0x4000000000000001#64 63 = (0x4000000000000001#64, 0#64) ∧
    composeValue 0x56789A#64 0x1234#64 24 = 0x123456789A#64 := by decide

/-! ### The canonical form of the cell array -/

theorem test_memory_wf_refuses :
    Memory.wf [(1, 5#64), (0, 5#64)] = false ∧ Memory.wf [(1, 5#64), (1, 6#64)] = false ∧
    Memory.wf [(1, 0#64)] = false ∧ Memory.wf [(0, 5#64), (9, 1#64)] = true := by decide

theorem test_memory_write_of_zero_removes_the_entry :
    Memory.write [(0, 5#64), (9, 1#64)] 9 0#64 = [(0, 5#64)] ∧ Memory.write [(9, 1#64)] 0 5#64 = [(0, 5#64), (9, 1#64)] := by
  decide

/-! ### Numbers of the textual form: `_` as R12 writes it, and the choices of notes/assumptions/9.md -/

theorem test_assembleNumber :
    assembleNumber ['0', 'x', 'F', '_', '0', 'a'] = some 0xF0A#64 ∧ assembleNumber ['0', 'x', '_'] = none ∧
    assembleNumber ['0', 'x'] = none ∧ assembleNumber ['_', '5'] = none ∧ assembleNumber ['1', '_'] = some 1#64 := by decide

/-! ### One command each -/

/-- V5 step 1. -/
theorem test_cfga : registersAfter (exec (.cfga 3#64 33#64) State.reset) = some (true, .aligned, 33, 3#64) := by decide

/-- V1: the width 65 is invalid, also in a configured unit, whose buffer survives (R171). -/
theorem test_cfga_invalidWidth :
    lastResponse (exec (.cfga 0#64 65#64) neighbours) = some 0x01_0000000000000000_0000000000000000#136 ∧
    registersAfter (exec (.cfga 0#64 65#64) neighbours) = some (true, .packed, 37, 16#64) := by decide

/-- V4 step 7: a re-configuration clears every cell (R153). -/
theorem test_cfgp_clears :
    registersAfter (exec (.cfgp 3#64 64#64) neighbours) = some (true, .packed, 64, 3#64) ∧
    cellsAfter (exec (.cfgp 3#64 64#64) neighbours) = some [] := by decide

/-- V7 step 12. -/
theorem test_cfgp_capacityExceeded :
    lastResponse (exec (.cfgp 65537#64 64#64) neighbours) = some 0x04_0000000000000000_0000000000000000#136 ∧
    cellsAfter (exec (.cfgp 65537#64 64#64) neighbours) = some neighbours.cells := by decide

/-- V3 step 7, with a junk ignored operand (R65). -/
theorem test_get :
    lastResponse (exec (.get 7#64 0xFFFFFFFFFFFFFFFF#64) neighbours) =
      some 0x00_0000001555555555_0000000000000000#136 := by decide

/-- V3 step 6: a spanning element. -/
theorem test_get_spanning :
    lastResponse (exec (.get 8#64 0#64)
      { neighbours with cells := [(4, 0x56789AAAAAAAAAA8#64), (5, 0x0001555555555234#64)] }) =
      some 0x00_000000123456789A_0000000000000000#136 := by decide

/-- V3 step 5: the low fragment and the carry, with the neighbours intact. -/
theorem test_set_spanning :
    cellsAfter (exec (.set 8#64 0x123456789A#64) neighbours) =
      some [(4, 0x56789AAAAAAAAAA8#64), (5, 0x0001555555555234#64)] := by decide

/-- V3 step 14: both errors apply, and IndexOutOfBounds wins. -/
theorem test_set_index_before_value :
    lastResponse (exec (.set 16#64 0x2000000000#64) neighbours) =
      some 0x02_0000000000000000_0000000000000000#136 := by decide

/-- X3 step 4. -/
theorem test_len :
    lastResponse (exec (.len 0#64 0#64) (fresh .aligned 4096 5)) = some 0x00_0000000000001000_0000000000000000#136 := by
  decide

/-- X3 step 3. -/
theorem test_pad :
    lastResponse (exec (.pad 0#64 0#64) (fresh .aligned 4096 5)) = some 0x00_0000000000000558_0000000000000000#136 := by
  decide

/-- X4 step 2. -/
theorem test_cap :
    lastResponse (exec (.cap 0#64 0#64) (fresh .packed 4096 5)) = some 0x00_0000000000000140_0000000000000000#136 := by
  decide

/-- Section 2.2: `LOC 8` after `CFGP 16, 37`. -/
theorem test_loc_spanning :
    lastResponse (exec (.loc 8#64 0#64) neighbours) = some 0x00_0000000000000004_00000000000D1868#136 := by decide

/-- Section 2.2: `LOC 2` after `CFGA 3, 33`. -/
theorem test_loc_single :
    lastResponse (exec (.loc 2#64 0#64) (fresh .aligned 3 33)) = some 0x00_0000000000000002_0000000000002100#136 := by
  decide

/-- V3 step 4, and V7 step 11 for the cell just beyond the ten of the buffer. -/
theorem test_rdc :
    lastResponse (exec (.rdc 5#64 0#64) neighbours) = some 0x00_0001555555554000_0000000000000000#136 ∧
    lastResponse (exec (.rdc 10#64 0#64) neighbours) = some 0x07_0000000000000000_0000000000000000#136 := by decide

/-- V7 step 1: NotConfigured, before the operand is looked at. -/
theorem test_notConfigured :
    lastResponse (exec (.get 0#64 0#64) State.reset) = some 0x06_0000000000000000_0000000000000000#136 := by decide

/-- V7 steps 3 to 5, and every other reserved row, configured or not (R66). -/
theorem test_reserved :
    (∀ s ∈ [State.reset, neighbours], ∀ i ∈ [Instr.reserved00 1#64 2#64, .reserved0A 0x0A#8 0#64 0#64,
        .reserved0C 0x0C#8 0#64 0#64, .reserved10 0x10#8 0#64 0#64, .reserved20 0x20#8 0#64 0#64,
        .reserved40 0x40#8 0#64 0#64, .reserved80 0xFF#8 0#64 0#64],
      lastResponse (exec i s) = some 0x05_0000000000000000_0000000000000000#136 ∧
        cellsAfter (exec i s) = some s.cells) := by decide

/-! ### One step each -/

/-- V7 step 2 as the first step after reset. -/
theorem test_step_runs_the_fetched_word :
    lastResponse (step (State.reset.withFetchWord 136 0x05_0000000000000000_0000000000000000)) =
      some 0x06_0000000000000000_0000000000000000#136 := by decide

/-- A reset takes the buffer away and is not answered (R190). -/
theorem test_step_reset :
    registersAfter (step { neighbours with pending := [.reset] }) = some (false, .aligned, 0, 0#64) ∧
    lastResponse (step { neighbours with pending := [.reset] }) = none := by decide

/-- A command that a reset cuts short is not answered either (R192). -/
theorem test_step_commandCutShort :
    registersAfter (step { neighbours with pending := [.commandCutShort (encode (.len 0#64 0#64))] }) =
      some (false, .aligned, 0, 0#64) ∧
    lastResponse (step { neighbours with pending := [.commandCutShort (encode (.len 0#64 0#64))] }) = none := by decide

/-- Nothing presented, nothing changed (R198). -/
theorem test_step_idle : step neighbours = .next neighbours := rfl

/-! ### Concrete values that meet the hypotheses of each obligation that has any -/

/-- The state a command leaves. -/
def after : Host.Outcome State Fault Refusal → State
  | .next t => t
  | _ => State.reset

/-- `s` with commands presented at its port. -/
def presenting (s : State) (is : List Instr) : State := { s with pending := is.map fun i => .command (encode i) }

theorem fresh_wellFormed {lay : Layout} {L w : Nat} (hw : 1 ≤ w ∧ w ≤ 64)
    (hcap : capacityCells lay (BitVec.ofNat 64 L).toNat w ≤ 1024) : StateInv (fresh lay L w) where
  maxCells_legal := ⟨by show 1 ≤ 1024; decide, by show 1024 ≤ 2 ^ 57; decide⟩
  cells_canonical := rfl
  width_legal _ := hw
  cells_inside _ _ _ := rfl
  capacity_fits _ := hcap
  unused_zero _ _ _ := by simp [fresh, cellBit]

theorem neighbours_wellFormed : StateInv neighbours where
  maxCells_legal := by decide
  cells_canonical := by decide
  width_legal _ := by decide
  cells_inside _ c hc := by
    have hc' : 10 ≤ c := hc
    simp only [neighbours, Memory.read]
    rw [if_neg (by omega), if_neg (by omega)]
  capacity_fits _ := by decide
  unused_zero _ p hp := by
    by_cases hb : p.2 < 64
    · by_cases hc : p.1 = 4 ∨ p.1 = 5
      · refine absurd ⟨(64 * p.1 + p.2) % 37, Nat.mod_lt _ (by decide), ?_⟩
          (hp ((64 * p.1 + p.2) / 37) (by show _ < 16; omega))
        have hg : (64 * p.1 + p.2) / 37 * 37 + (64 * p.1 + p.2) % 37 = 64 * p.1 + p.2 := by omega
        show (((64 * p.1 + p.2) / 37 * 37 + (64 * p.1 + p.2) % 37) / 64,
          ((64 * p.1 + p.2) / 37 * 37 + (64 * p.1 + p.2) % 37) % 64) = p
        rw [hg]
        exact Prod.ext (by show _ / 64 = _; omega) (by show _ % 64 = _; omega)
      · rw [not_or] at hc
        simp only [cellBit, neighbours, Memory.read, if_neg hc.1, if_neg hc.2, BitVec.getLsbD_zero]
    · exact BitVec.getLsbD_of_ge _ _ (by omega)

/-- Well-formedness speaks neither of the moves pending nor of the responses given. -/
theorem presenting_wellFormed {s : State} (hs : StateInv s) (is : List Instr) : StateInv (presenting s is) :=
  ⟨hs.1, hs.2, hs.3, hs.4, hs.5, hs.6⟩

/-- A well-formed unconfigured state with the least legal `MAX_CELLS`. -/
theorem smallest_wellFormed : StateInv { State.reset with maxCells := 1 } where
  maxCells_legal := by decide
  cells_canonical := rfl
  width_legal h := by cases h
  cells_inside h := by cases h
  capacity_fits h := by cases h
  unused_zero h := by cases h

theorem witness_DecodeOfEncode :
    ∀ i ∈ [Instr.cfga 0#64 0#64, .reserved0A 0x0A#8 0#64 0#64, .reserved0C 0x0C#8 0#64 0#64,
      .reserved10 0x10#8 0#64 0#64, .reserved20 0x20#8 0#64 0#64, .reserved40 0x40#8 0#64 0#64,
      .reserved80 0x80#8 0#64 0#64], i.wellFormed = true := by decide

theorem witness_StepRunsTheDecodedCommand :
    (Instr.get 7#64 0#64).wellFormed = true ∧
    (presenting neighbours [.get 7#64 0#64, .len 0#64 0#64]).pending =
      .command (encode (.get 7#64 0#64)) :: [.command (encode (.len 0#64 0#64))] := ⟨rfl, rfl⟩

theorem witness_StepTakesOneMoveAndKeepsMaxCells :
    step neighbours = .next neighbours ∧
    (∃ t, step { neighbours with pending := [.reset] } = .next t) ∧
    ∃ t, step (presenting neighbours [.get 7#64 0#64]) = .next t := ⟨rfl, ⟨_, rfl⟩, ⟨_, rfl⟩⟩

/-- Two words, the number of steps at both ends of its range, and the last word. -/
theorem witness_RunAnswersEveryCommandInOrder :
    StateInv (presenting neighbours [.get 7#64 0#64, .reserved00 0#64 0#64]) ∧
    (presenting neighbours [.get 7#64 0#64, .reserved00 0#64 0#64]).pending =
      [encode (.get 7#64 0#64), encode (.reserved00 0#64 0#64)].map HostMove.command ∧
    0 ≤ 2 ∧ [encode (.get 7#64 0#64), encode (.reserved00 0#64 0#64)].length = 2 ∧
    [encode (.get 7#64 0#64), encode (.reserved00 0#64 0#64)][1]? = some (encode (.reserved00 0#64 0#64)) :=
  ⟨presenting_wellFormed neighbours_wellFormed _, rfl, by decide, rfl, rfl⟩

/-- One command for each of the eight statuses of R170. -/
theorem witness_StatusOfEveryCommand :
    StateInv (presenting neighbours [.get 7#64 0#64]) ∧
    (presenting neighbours [.get 7#64 0#64]).pending = .command (encode (.get 7#64 0#64)) :: [] ∧
    expectedStatus neighbours 0x03#8 7 0 = 0x00#8 ∧ expectedStatus neighbours 0x01#8 5 65 = 0x01#8 ∧
    expectedStatus neighbours 0x08#8 16 0 = 0x02#8 ∧ expectedStatus neighbours 0x04#8 15 (2 ^ 37) = 0x03#8 ∧
    expectedStatus neighbours 0x02#8 65537 64 = 0x04#8 ∧ expectedStatus neighbours 0x0A#8 0 0 = 0x05#8 ∧
    expectedStatus State.reset 0x09#8 0 0 = 0x06#8 ∧ expectedStatus neighbours 0x09#8 10 0 = 0x07#8 :=
  ⟨presenting_wellFormed neighbours_wellFormed _, rfl, by decide⟩

theorem witness_ResetMoveUnconfiguresTheUnit :
    ({ neighbours with pending := [.reset, .reset] } : State).pending = .reset :: [.reset] ∧
    ({ neighbours with pending := [.commandCutShort (encode (.set 8#64 1#64))] } : State).pending =
      .commandCutShort (encode (.set 8#64 1#64)) :: [] := ⟨rfl, rfl⟩

/-- Two unconfigured states with different registers, and a run of two steps from the first. -/
theorem witness_UnconfiguredRegistersAreUnobservable :
    hostCannotTell (presenting State.reset [.len 0#64 0#64, .cfga 3#64 33#64])
      (presenting { neighbours with configured := false } [.len 0#64 0#64, .cfga 3#64 33#64]) ∧
    ∃ t, Host.Core.run Sys2Proof.core 2 (presenting State.reset [.len 0#64 0#64, .cfga 3#64 33#64]) = .next t :=
  ⟨⟨rfl, rfl, rfl, rfl, fun h => by cases h⟩, ⟨_, rfl⟩⟩

theorem witness_StepKeepsTheStateWellFormed :
    StateInv (presenting neighbours [.set 8#64 0x123456789A#64]) ∧
    ∃ t, step (presenting neighbours [.set 8#64 0x123456789A#64]) = .next t :=
  ⟨presenting_wellFormed neighbours_wellFormed _, ⟨_, rfl⟩⟩

theorem witness_NoStepTouchesACellOutsideTheBuffer :
    StateInv (presenting neighbours [.rdc 9#64 0#64]) ∧ StateInv (presenting neighbours [.rdc 10#64 0#64]) :=
  ⟨presenting_wellFormed neighbours_wellFormed _, presenting_wellFormed neighbours_wellFormed _⟩

theorem witness_OnlyConfigurationWritesTheRegisters :
    (presenting neighbours [.get 7#64 0#64]).pending = .command (encode (.get 7#64 0#64)) :: [] ∧
    (∃ t, step (presenting neighbours [.get 7#64 0#64]) = .next t) ∧
    opcodeField (encode (.get 7#64 0#64)) ∉ [0x01#8, 0x02#8, 0x04#8] ∧
    (presenting neighbours [.get 7#64 0#64]).configured = true := ⟨rfl, ⟨_, rfl⟩, by decide, rfl⟩

/-- The ends of every clause, for `MAX_CELLS` = 1024. -/
theorem witness_CfgaConstructsAnAlignedBuffer :
    State.reset.maxCells = 1024 ∧ (0#64).toNat = 0 ∧ 64 < (65#64).toNat ∧
    (1 ≤ (1#64).toNat ∧ (1#64).toNat ≤ 64 ∧ 1024 < ((65537#64).toNat + 64 / 1 - 1) / (64 / 1)) ∧
    (1 ≤ (64#64).toNat ∧ (64#64).toNat ≤ 64 ∧ 1024 < ((1025#64).toNat + 64 / 64 - 1) / (64 / 64)) ∧
    ((65536#64).toNat + 64 / 1 - 1) / (64 / 1) ≤ 1024 ∧ ((1024#64).toNat + 64 / 64 - 1) / (64 / 64) ≤ 1024 ∧
    (65535#64).toNat < (65536#64).toNat := by decide

/-- The ends of every clause, for `MAX_CELLS` = 1024. -/
theorem witness_CfgpConstructsAPackedBuffer :
    State.reset.maxCells = 1024 ∧ (0#64).toNat = 0 ∧ 64 < (65#64).toNat ∧
    (1 ≤ (1#64).toNat ∧ (1#64).toNat ≤ 64 ∧ 1024 < ((65537#64).toNat * 1 + 63) / 64) ∧
    (1 ≤ (64#64).toNat ∧ (64#64).toNat ≤ 64 ∧ 1024 < ((1025#64).toNat * 64 + 63) / 64) ∧
    ((65536#64).toNat * 1 + 63) / 64 ≤ 1024 ∧ ((1024#64).toNat * 64 + 63) / 64 ≤ 1024 ∧
    (65535#64).toNat < (65536#64).toNat := by decide

theorem witness_WidthIsCheckedFirst :
    widthValid (0#64).toNat = false ∧ widthValid (65#64).toNat = false ∧
    widthValid (0xFFFFFFFFFFFFFFFF#64).toNat = false := by decide

/-- Two states with different buffers, or none, and a configuration that succeeds and one that fails. -/
theorem witness_ConfigurationDiscardsTheOldBuffer :
    neighbours.maxCells = State.reset.maxCells ∧ neighbours.pending = State.reset.pending ∧
    neighbours.responses = State.reset.responses ∧
    (Instr.cfgp 3#64 64#64 = .cfga 3#64 64#64 ∨ Instr.cfgp 3#64 64#64 = .cfgp 3#64 64#64) ∧
    (Instr.cfga 3#64 65#64 = .cfga 3#64 65#64 ∨ Instr.cfga 3#64 65#64 = .cfgp 3#64 65#64) := by decide

theorem witness_BufferErrorsExactlyWhen : (fresh .packed 3 64).width = 64 := rfl

theorem witness_CommandErrorsExactlyWhen :
    (Instr.reserved00 0#64 0#64).wellFormed = true ∧ (Instr.reserved0A 0x0A#8 0#64 0#64).wellFormed = true ∧
    (Instr.rdc 0#64 0#64).wellFormed = true := by decide

theorem witness_ReservedOpcodesAnswerIllegalCommand :
    ({ neighbours with pending := [.command 0x0A_0000000000000000_0000000000000001#136] } : State).pending =
      .command 0x0A_0000000000000000_0000000000000001#136 :: [] ∧
    0x0A#8 ≤ opcodeField 0x0A_0000000000000000_0000000000000001#136 ∧
    opcodeField 0x00_0000000000000000_0000000000000001#136 = 0x00#8 ∧
    0x0A#8 ≤ opcodeField 0xFF_0000000000000000_0000000000000001#136 := by decide

/-- A GET and two SETs that fail: `index = length`, and `value = 2^width`. -/
theorem witness_FailedGetOrSetChangesNothing :
    (∃ t, exec (.get 16#64 0#64) neighbours = .next t ∧
      t.responses = neighbours.responses ++ [0x02_0000000000000000_0000000000000000#136]) ∧
    (∃ t, exec (.set 16#64 0#64) neighbours = .next t ∧
      t.responses = neighbours.responses ++ [0x02_0000000000000000_0000000000000000#136]) ∧
    (∃ t, exec (.set 15#64 0x2000000000#64) neighbours = .next t ∧
      t.responses = neighbours.responses ++ [0x03_0000000000000000_0000000000000000#136]) ∧
    statusField 0x02_0000000000000000_0000000000000000#136 ≠ 0x00#8 :=
  ⟨⟨_, rfl, by decide⟩, ⟨_, rfl, by decide⟩, ⟨_, rfl, by decide⟩, by decide⟩

theorem witness_LenAnswersTheLength :
    neighbours.configured = true ∧ State.reset.configured = false ∧
    (presenting neighbours [.cfga 3#64 33#64]).pending = .command (encode (.cfga 3#64 33#64)) :: [] ∧
    (∃ t, step (presenting neighbours [.cfga 3#64 33#64]) = .next t) ∧
    expectedStatus neighbours (opcodeField (encode (.cfga 3#64 33#64))) 3 33 = 0x00#8 :=
  ⟨rfl, rfl, rfl, ⟨_, rfl⟩, by decide⟩

theorem witness_CapAnswersTheCapacity :
    StateInv neighbours ∧ neighbours.configured = true ∧
    StateInv (fresh .aligned 0 5) ∧ (fresh .aligned 0 5).configured = true ∧ (fresh .aligned 0 5).length = 0#64 ∧
    StateInv { State.reset with maxCells := 1 } ∧ ({ State.reset with maxCells := 1 } : State).configured = false :=
  ⟨neighbours_wellFormed, rfl, fresh_wellFormed (by decide) (by decide), rfl, rfl, smallest_wellFormed, rfl⟩

/-- Every clause: Packed; Aligned with padding, without padding, empty, and with one element of 5 bits. -/
theorem witness_PadAnswersThePaddingCount :
    (StateInv neighbours ∧ neighbours.configured = true ∧ neighbours.layout = .packed) ∧
    (StateInv (fresh .aligned 3 33) ∧ (fresh .aligned 3 33).configured = true ∧ (fresh .aligned 3 33).layout = .aligned) ∧
    (StateInv (fresh .aligned 3 64) ∧ (fresh .aligned 3 64).configured = true ∧
      (fresh .aligned 3 64).width ∈ [1, 2, 4, 8, 16, 32, 64]) ∧
    (StateInv (fresh .aligned 0 5) ∧ (fresh .aligned 0 5).length = 0#64) ∧
    (StateInv (fresh .aligned 1 5) ∧ (fresh .aligned 1 5).length = 1#64 ∧ (fresh .aligned 1 5).width = 5) :=
  ⟨⟨neighbours_wellFormed, rfl, rfl⟩, ⟨fresh_wellFormed (by decide) (by decide), rfl, rfl⟩,
    ⟨fresh_wellFormed (by decide) (by decide), rfl, by decide⟩, ⟨fresh_wellFormed (by decide) (by decide), rfl⟩,
    ⟨fresh_wellFormed (by decide) (by decide), rfl, rfl⟩⟩

/-- Every clause: a spanning index and the last index of a Packed buffer, the index equal to `length`, an Aligned buffer,
and `width = 64`. -/
theorem witness_LocAnswersTheLocation :
    (StateInv neighbours ∧ neighbours.configured = true ∧ neighbours.layout = .packed ∧
      (8#64).toNat < neighbours.length.toNat ∧ ¬ (8#64).toNat * neighbours.width % 64 + neighbours.width ≤ 64 ∧
      (9#64).toNat * neighbours.width % 64 + neighbours.width ≤ 64 ∧ (15#64).toNat < neighbours.length.toNat ∧
      neighbours.length.toNat ≤ (16#64).toNat) ∧
    (StateInv (fresh .aligned 3 64) ∧ (fresh .aligned 3 64).configured = true ∧ (fresh .aligned 3 64).width = 64 ∧
      (2#64).toNat < (fresh .aligned 3 64).length.toNat) ∧
    (StateInv { State.reset with maxCells := 1 } ∧ ({ State.reset with maxCells := 1 } : State).configured = false) :=
  ⟨⟨neighbours_wellFormed, by decide⟩, ⟨fresh_wellFormed (by decide) (by decide), by decide⟩, smallest_wellFormed, rfl⟩

/-- The last cell of the buffer, the first beyond it, a bit of it that no element uses, and an empty buffer. -/
theorem witness_RdcAnswersTheCell :
    neighbours.configured = true ∧ (9#64).toNat < capacityOf neighbours ∧ capacityOf neighbours ≤ (10#64).toNat ∧
    State.reset.configured = false ∧ (fresh .aligned 0 5).configured = true ∧ (fresh .aligned 0 5).length = 0#64 ∧
    StateInv (fresh .aligned 3 64) ∧ StateInv neighbours ∧
    ∀ i, i < neighbours.length.toNat → ¬ inRegion neighbours.layout neighbours.width i ((9#64).toNat, 16) := by
  refine ⟨rfl, by decide, by decide, rfl, rfl, rfl, fresh_wellFormed (by decide) (by decide), neighbours_wellFormed, ?_⟩
  rintro i hi ⟨k, hk, h⟩
  have hi' : i < 16 := hi
  have hk' : k < 37 := hk
  have h' : ((i * 37 + k) / 64, (i * 37 + k) % 64) = (9, 16) := h
  have h1 := congrArg Prod.fst h'
  have h2 := congrArg Prod.snd h'
  simp only at h1 h2
  omega

theorem witness_ReadingHasNoSideEffectAndSetIsIdempotent :
    (∀ i ∈ [Instr.get 7#64 0#64, .rdc 9#64 0#64, .len 0#64 0#64, .pad 0#64 0#64, .cap 0#64 0#64, .loc 8#64 0#64],
      exec i neighbours = .next (after (exec i neighbours))) ∧
    StateInv neighbours ∧ neighbours.configured = true ∧ (8#64).toNat < neighbours.length.toNat ∧
    (0x1FFFFFFFFF#64).toNat < 2 ^ neighbours.width ∧
    exec (.set 8#64 0x1FFFFFFFFF#64) neighbours = .next (after (exec (.set 8#64 0x1FFFFFFFFF#64) neighbours)) ∧
    7 < neighbours.length.toNat ∧ 7 ≠ (8#64).toNat ∧ 36 < neighbours.width := by
  refine ⟨?_, neighbours_wellFormed, rfl, by decide, by decide, rfl, by decide, by decide, by decide⟩
  intro i hi
  simp only [List.mem_cons, List.not_mem_nil, or_false] at hi
  rcases hi with rfl | rfl | rfl | rfl | rfl | rfl <;> rfl

/-- The last index, the index equal to `length`, and an unconfigured unit. -/
theorem witness_GetAnswersTheElement :
    StateInv neighbours ∧ neighbours.configured = true ∧ (15#64).toNat < neighbours.length.toNat ∧
    neighbours.length.toNat ≤ (16#64).toNat ∧
    StateInv { State.reset with maxCells := 1 } ∧ ({ State.reset with maxCells := 1 } : State).configured = false :=
  ⟨neighbours_wellFormed, rfl, by decide, by decide, smallest_wellFormed, rfl⟩

theorem witness_GetAnswersBelowTwoToTheWidth :
    StateInv neighbours ∧ neighbours.configured = true ∧ (7#64).toNat < neighbours.length.toNat ∧
    ∃ t, exec (.get 7#64 0#64) neighbours = .next t ∧
      t.responses = neighbours.responses ++ [0x00#8 ++ 0x1555555555#64 ++ 0#64] :=
  ⟨neighbours_wellFormed, rfl, by decide, _, rfl, by decide⟩

/-- The greatest value that fits and the least that does not, at the last index, and the index equal to `length`. -/
theorem witness_SetWritesExactlyItsRegion :
    StateInv neighbours ∧ neighbours.configured = true ∧ (15#64).toNat < neighbours.length.toNat ∧
    (0x1FFFFFFFFF#64).toNat < 2 ^ neighbours.width ∧ 2 ^ neighbours.width ≤ (0x2000000000#64).toNat ∧
    neighbours.length.toNat ≤ (16#64).toNat ∧
    StateInv { State.reset with maxCells := 1 } ∧ ({ State.reset with maxCells := 1 } : State).configured = false :=
  ⟨neighbours_wellFormed, rfl, by decide, by decide, by decide, by decide, smallest_wellFormed, rfl⟩

/-- A spanning element, an element in one cell, and a SET that fails. -/
theorem witness_SetFrameAtItsLocation :
    StateInv neighbours ∧ neighbours.configured = true ∧
    (∃ t, exec (.set 8#64 1#64) neighbours = .next t) ∧ (8#64).toNat < neighbours.length.toNat ∧
    locate neighbours.layout (8#64).toNat neighbours.width = .spanning 4 24 5 13 ∧
    (∃ t, exec (.set 9#64 1#64) neighbours = .next t) ∧ (9#64).toNat < neighbours.length.toNat ∧
    locate neighbours.layout (9#64).toNat neighbours.width = .single 5 13 ∧
    (∃ t, exec (.set 16#64 1#64) neighbours = .next t) :=
  ⟨neighbours_wellFormed, rfl, ⟨_, rfl⟩, by decide, by decide, ⟨_, rfl⟩, by decide, by decide, ⟨_, rfl⟩⟩

/-- Two states that agree on cell 4, where element 7 lies, and differ in cell 5. -/
theorem witness_GetDependsOnItsLocationOnly :
    (∀ c ∈ locationCells (locate neighbours.layout (7#64).toNat neighbours.width),
      Memory.read [(4, 0x000000AAAAAAAAA8#64)] c = Memory.read neighbours.cells c) ∧
    ({ neighbours with cells := [(4, 0x000000AAAAAAAAA8#64)] } : State) ≠ neighbours ∧
    exec (.get 7#64 0#64) neighbours = .next (answered neighbours 0x00#8 0x1555555555#64 0#64) ∧
    (fresh .aligned 3 33).layout = .aligned := ⟨by decide, by decide, rfl, rfl⟩

/-- A SET of element 8, then a SET of its neighbour and a GET presented before it is read back. -/
theorem witness_GetAnswersTheLastSet :
    ∃ s t u : State, StateInv s ∧ s.configured = true ∧ (8#64).toNat < s.length.toNat ∧
      (0x123456789A#64).toNat < 2 ^ s.width ∧ exec (.set 8#64 0x123456789A#64) s = .next t ∧ undisturbed 8#64 2 t ∧
      Host.Core.run Sys2Proof.core 2 t = .next u := by
  refine ⟨presenting neighbours [.set 7#64 0#64, .get 8#64 0#64], _, _, presenting_wellFormed neighbours_wellFormed _, rfl,
    by decide, by decide, rfl, ?_, rfl⟩
  refine ⟨?_, ?_⟩
  · rintro m rest ⟨⟩
    decide
  · rintro t ⟨⟩
    refine ⟨?_, fun _ _ => trivial⟩
    rintro m rest ⟨⟩
    decide

theorem witness_SetLeavesOtherElements :
    StateInv neighbours ∧ neighbours.configured = true ∧ (7#64).toNat < neighbours.length.toNat ∧
    (8#64).toNat < neighbours.length.toNat ∧ 7#64 ≠ 8#64 ∧ (0x1FFFFFFFFF#64).toNat < 2 ^ neighbours.width ∧
    (∃ t, exec (.set 8#64 0x1FFFFFFFFF#64) neighbours = .next t) ∧
    ¬ inRegion neighbours.layout neighbours.width (8#64).toNat (4, 39) := by
  refine ⟨neighbours_wellFormed, rfl, by decide, by decide, by decide, by decide, ⟨_, rfl⟩, ?_⟩
  rintro ⟨k, hk, h⟩
  have hk' : k < 37 := hk
  have h' : ((8 * 37 + k) / 64, (8 * 37 + k) % 64) = (4, 39) := h
  have h1 := congrArg Prod.fst h'
  have h2 := congrArg Prod.snd h'
  simp only at h1 h2
  omega

/-- Both configurations, the last index, and a SET of another element presented before it is read. -/
theorem witness_FreshBufferReadsZero :
    ∃ s t t' u : State, StateInv s ∧ widthValid (37#64).toNat = true ∧ (15#64).toNat < (16#64).toNat ∧
      capacityCells .packed (16#64).toNat (37#64).toNat ≤ s.maxCells ∧ exec (.cfgp 16#64 37#64) s = .next t ∧
      capacityCells .aligned (16#64).toNat (37#64).toNat ≤ s.maxCells ∧ exec (.cfga 16#64 37#64) s = .next t' ∧
      undisturbed 15#64 1 t ∧ Host.Core.run Sys2Proof.core 1 t = .next u := by
  refine ⟨presenting neighbours [.set 8#64 1#64], _, _, _, presenting_wellFormed neighbours_wellFormed _, by decide,
    by decide, by decide, rfl, by decide, rfl, ⟨?_, fun _ _ => trivial⟩, rfl⟩
  rintro m rest ⟨⟩
  decide

/-- The least and the greatest width, and the least with one element in a cell. -/
theorem witness_AlignedLocations : (1 ≤ 1 ∧ 1 ≤ 64) ∧ (1 ≤ 64 ∧ 64 ≤ 64) ∧ (1 ≤ 33 ∧ 33 ≤ 64 ∧ 33 ≤ 33) := by decide

/-- The least and the greatest width, and a width that does not divide 64. -/
theorem witness_PackedLocations : (1 ≤ 1 ∧ 1 ≤ 64) ∧ (1 ≤ 64 ∧ 64 ≤ 64) ∧ (1 ≤ 37 ∧ 37 ≤ 64 ∧ ¬ 37 ∣ 64) := by decide

/-- The first and the last index of a length. -/
theorem witness_EveryLocationLiesInsideTheBuffer : 1 ≤ 37 ∧ 37 ≤ 64 ∧ 0 < 16 ∧ 15 < 16 := by decide

/-- The lengths 0 and 1. -/
theorem witness_CapacityIsMinimal : 1 ≤ 5 ∧ 5 ≤ 64 ∧ (0 = 0) ∧ (1 ≤ 1) := by decide

theorem witness_RegionsAreDisjoint : 1 ≤ 37 ∧ 37 ≤ 64 ∧ 8 < 16 ∧ 9 < 16 ∧ 8 ≠ 9 := by decide

/-- The highest bit of a spanning element. -/
theorem witness_LocationIsTheClosedForm : 1 ≤ 37 ∧ 37 ≤ 64 ∧ 36 < 37 := by decide

theorem witness_MaskedWordsAsNumbers :
    64 ≤ 64 ∧ 13 + 37 ≤ 64 ∧ 0 + 64 ≤ 64 ∧ (0x5D4C3B2A1#64).toNat < 2 ^ 37 ∧
    (63 ≤ 63 ∧ (0x4000000000000001#64).toNat < 2 ^ (63 + 1)) ∧
    ((0x56789A#64).toNat < 2 ^ 24 ∧ (0x1234#64).toNat < 2 ^ 13 ∧ 24 + 13 ≤ 64) := by decide

theorem witness_ReadAfterWriteAtALocation :
    Memory.wf neighbours.cells = true ∧ (0x123456789A#64).toNat < 2 ^ 37 ∧
    ∃ t, insertAt neighbours (locate .packed 8 37) 37 0x123456789A#64 = .ok t := ⟨by decide, by decide, _, rfl⟩

/-- The last byte of the last cell. -/
theorem witness_CellImageIsLittleEndian : 9 < capacityOf neighbours ∧ 7 < 8 := by decide

/-- A buffer of one element of 64 bits that holds 5, and a unit that holds another. -/
theorem witness_RebuildRestoresTheBuffer :
    ∃ (s u : State) (values : List Word), StateInv s ∧ s.configured = true ∧ values.length = s.length.toNat ∧
      (∀ i v, values[i]? = some v → elementHolds s i v) ∧ StateInv u ∧ u.maxCells = s.maxCells ∧
      u.pending = (rebuildCommands s.layout (BitVec.ofNat 64 s.width) values).map (fun i => .command (encode i)) := by
  refine ⟨{ fresh .packed 1 64 with cells := [(0, 5#64)] }, presenting neighbours (rebuildCommands .packed 64#64 [5#64]),
    [5#64], ⟨by decide, by decide, fun _ => by decide, fun _ c hc => ?_, fun _ => by decide, fun _ p hp => ?_⟩, rfl, by decide,
    fun i v h => ?_, presenting_wellFormed neighbours_wellFormed _, rfl, rfl⟩
  · have hc' : 1 ≤ c := hc
    simp only [Memory.read]
    rw [if_neg (by omega)]
  · by_cases hb : p.2 < 64
    · by_cases hc : p.1 = 0
      · refine absurd ⟨p.2, hb, ?_⟩ (hp 0 (by decide))
        show ((0 * 64 + p.2) / 64, (0 * 64 + p.2) % 64) = p
        exact Prod.ext (by show _ / 64 = _; omega) (by show _ % 64 = _; omega)
      · simp only [cellBit, Memory.read, if_neg hc, BitVec.getLsbD_zero]
    · exact BitVec.getLsbD_of_ge _ _ (by omega)
  · match i with
    | 0 =>
      obtain rfl : 5#64 = v := by simpa using h
      intro k hk
      have hk' : decide (k < 64) = true := decide_eq_true hk
      show _ = (decide (k < 64) && cellBit _ ((0 * 64 + k) / 64, (0 * 64 + k) % 64))
      rw [hk', Bool.true_and, show ((0 * 64 + k) / 64, (0 * 64 + k) % 64) = (0, k) from
        Prod.ext (by show _ / 64 = _; omega) (by show _ % 64 = _; omega)]
      rfl
    | n + 1 => simp at h

end Sys2Proof.Tests
end

section
/-! SUPPORT. Where the elements of a buffer lie, for every legal width: the Location of a valid index fits the buffer,
places each bit where the closed form of R42 does, and no two elements share a bit (spec/41_cell_layout.md). -/

namespace Sys2Proof.Machine

/-- A quotient of an index below `L` is below the rounded-up quotient of `L`. -/
theorem div_lt_ceilDiv {i L n : Nat} (hn : 0 < n) (hi : i < L) : i / n < ceilDiv L n := by
  have hmul : i / n * n ≤ i := Nat.div_mul_le_self i n
  refine (Nat.le_div_iff_mul_le hn).2 ?_
  rw [Nat.succ_mul]
  omega

theorem elementsPerCell_pos {w : Nat} (hw : 1 ≤ w ∧ w ≤ 64) : 0 < elementsPerCell w := Nat.div_pos hw.2 hw.1

/-- A slot of an Aligned cell ends inside the cell (R92). -/
theorem slot_end_le {r w : Nat} (hr : r < elementsPerCell w) : r * w + w ≤ 64 := by
  rw [← Nat.succ_mul]
  exact (Nat.mul_le_mul_right w hr).trans (Nat.div_mul_le_self 64 w)

/-- The Location of a valid index has the shape R92 and R93 give it, inside the buffer (R99). -/
theorem locate_fits {lay : Layout} {L w i : Nat} (hw : 1 ≤ w ∧ w ≤ 64) (hi : i < L) :
    locationFits w (capacityCells lay L w) (locate lay i w) := by
  cases lay with
  | aligned => exact ⟨div_lt_ceilDiv (elementsPerCell_pos hw) hi, slot_end_le (Nat.mod_lt _ (elementsPerCell_pos hw))⟩
  | packed =>
    have hend : i * w + w ≤ L * w := by
      rw [← Nat.succ_mul]
      exact Nat.mul_le_mul_right w hi
    simp only [locate, locatePacked, capacityCells, ceilDiv]
    split
    · exact ⟨by omega, by omega⟩
    · exact ⟨rfl, by omega⟩

/-- The Location of an element places each of its bits where the closed form does (R42). -/
theorem locationPlace_locate (lay : Layout) {w i k : Nat} (hw : w ≤ 64) (hk : k < w) :
    locationPlace (locate lay i w) k = elementPlace lay w i k := by
  cases lay with
  | aligned => rfl
  | packed =>
    simp only [locate, locatePacked, elementPlace]
    split
    · exact Prod.ext (by simp only [locationPlace]; omega) (by simp only [locationPlace]; omega)
    · simp only [locationPlace]
      split <;> exact Prod.ext (by simp only []; omega) (by simp only []; omega)

/-- A bit number of a sequence of `w`-bit fields determines the field. -/
theorem field_unique {w i j k l : Nat} (hk : k < w) (hl : l < w) (h : i * w + k = j * w + l) : i = j := by
  have hq : ∀ {x y : Nat}, y < w → (x * w + y) / w = x := fun {x y} hy => by
    rw [Nat.mul_comm, Nat.mul_add_div (by omega), Nat.div_eq_of_lt hy, Nat.add_zero]
  rw [← hq (x := i) hk, h, hq hl]

/-- A position lies in the region of one element at most (R102). -/
theorem elementPlace_element_unique {lay : Layout} {w i j k l : Nat} (hk : k < w) (hl : l < w)
    (h : elementPlace lay w i k = elementPlace lay w j l) : i = j := by
  cases lay with
  | aligned =>
    obtain ⟨hcell, hbit⟩ := Prod.mk.inj h
    rw [← Nat.div_add_mod i (64 / w), hcell, field_unique hk hl hbit, Nat.div_add_mod]
  | packed =>
    obtain ⟨hcell, hbit⟩ := Prod.mk.inj h
    exact field_unique hk hl (by omega)

end Sys2Proof.Machine
end

section
/-! SUPPORT. A successful SET: what the cells hold after it (R117, R131). -/

namespace Sys2Proof.Machine

/-- The cells `m` are those of `s` with the value `v` in element `i`: every bit of the element is the value's, and every
bit outside its region is as in `s` (R131). -/
structure WritesElement (s : State) (i : Nat) (v : Word) (m : Memory) : Prop where
  canonical : Memory.wf m = true
  inside : ∀ k, k < s.width → cellBit { s with cells := m } (elementPlace s.layout s.width i k) = v.getLsbD k
  outside : ∀ p, ¬ inRegion s.layout s.width i p → cellBit { s with cells := m } p = cellBit s p

/-- A SET whose index and value are legal succeeds and writes its element (R131). -/
theorem execSet_writesElement {s : State} (hm : Memory.wf s.cells = true) (hw : 1 ≤ s.width ∧ s.width ≤ 64)
    (hc : s.configured = true) {i v : Word} (hi : i.toNat < s.length.toNat) (hv : v.toNat < 2 ^ s.width) :
    ∃ m, exec (.set i v) s = .next (answered { s with cells := m } 0x00#8 0#64 0#64) ∧ WritesElement s i.toNat v m := by
  obtain ⟨m, hins, hcan, hin, hout⟩ := insertAt_spec hm (locate_fits (lay := s.layout) hw hi) hv
  refine ⟨m, ?_, hcan, fun k hk => ?_, fun p hp => hout p fun k hk hkp => hp ⟨k, hk, ?_⟩⟩
  · have hexec : exec (.set i v) s = execSet i v s := rfl
    rw [hexec, execSet, whenConfigured_of_true hc, if_neg (Nat.not_le.2 hi), if_neg (Nat.not_le.2 hv), hins]
    rfl
  · rw [← locationPlace_locate s.layout hw.2 hk]
    exact hin k hk
  · rw [← locationPlace_locate s.layout hw.2 hk]
    exact hkp

/-- Two canonical cell arrays with the same bits are the same data. -/
theorem cells_eq_of_cellBit {s : State} {m m' : Memory} (hm : Memory.wf m = true) (hm' : Memory.wf m' = true)
    (h : ∀ p, cellBit { s with cells := m } p = cellBit { s with cells := m' } p) : m = m' :=
  Memory.ext hm hm' fun c => BitVec.eq_of_getLsbD_eq fun k _ => h (c, k)

/-- Writing the value an element already holds leaves the cells as they are (R48). -/
theorem WritesElement.again {s : State} {i : Nat} {v : Word} {m m' : Memory} (h : WritesElement s i v m)
    (h' : WritesElement { s with cells := m } i v m') : m' = m := by
  refine cells_eq_of_cellBit (s := s) h'.canonical h.canonical fun p => ?_
  by_cases hp : inRegion s.layout s.width i p
  · obtain ⟨k, hk, rfl⟩ := hp
    exact (h'.inside k hk).trans (h.inside k hk).symm
  · exact h'.outside p hp

/-- Writing an element alters no bit of another (R102, R133). -/
theorem WritesElement.other {s : State} {i j k : Nat} {v : Word} {m : Memory} (h : WritesElement s i v m) (hij : j ≠ i)
    (hk : k < s.width) : elementBit { s with cells := m } j k = elementBit s j k :=
  h.outside _ fun ⟨_, hl, hp⟩ => hij (elementPlace_element_unique hl hk hp).symm

end Sys2Proof.Machine
end

section
/-! SUPPORT. The commands that only read: their answer does not depend on the responses already given, and giving it
is all they do (R48). -/

namespace Sys2Proof.Machine

/-- The outcome of a command in `s` and its outcome in `s'` are one response, put on the port of each and nothing else
changed, or one fault. -/
inductive SameReply (s s' : State) : Host.Outcome State Fault Refusal → Host.Outcome State Fault Refusal → Prop where
  | answer (r : ResponseWord) : SameReply s s' (.next (appendResponse s r)) (.next (appendResponse s' r))
  | fault (f : Fault) : SameReply s s' (.fault f) (.fault f)

theorem SameReply.of_next {s s' t : State} {o o' : Host.Outcome State Fault Refusal} (h : SameReply s s' o o')
    (ho : o = .next t) : ∃ r, t = appendResponse s r ∧ o' = .next (appendResponse s' r) := by
  cases h with
  | answer r => exact ⟨r, (Host.Outcome.next.inj ho).symm, rfl⟩
  | fault f => cases ho

theorem SameReply.ite {s s' : State} {p : Prop} [Decidable p] {o₁ o₂ o₁' o₂' : Host.Outcome State Fault Refusal}
    (h₁ : SameReply s s' o₁ o₁') (h₂ : SameReply s s' o₂ o₂') :
    SameReply s s' (if p then o₁ else o₂) (if p then o₁' else o₂') := by
  by_cases hp : p
  · rwa [if_pos hp, if_pos hp]
  · rwa [if_neg hp, if_neg hp]

/-- The commands that R48 says have no side effect. -/
def Reading (i : Instr) (a b : Word) : Prop :=
  i = .get a b ∨ i = .rdc a b ∨ i = .len a b ∨ i = .pad a b ∨ i = .cap a b ∨ i = .loc a b

/-- A reading command gives the same reply whatever response was given last. -/
theorem exec_reading_sameReply {i : Instr} {a b : Word} (hi : Reading i a b) (s : State) (r : ResponseWord) :
    SameReply s (appendResponse s r) (exec i s) (exec i (appendResponse s r)) := by
  -- The checks of a command read registers only, so both runs take the same branch of each.
  obtain rfl | rfl | rfl | rfl | rfl | rfl := hi
  · refine .ite (.ite (.answer _) ?_) (.answer _)
    have hx : extractAt (appendResponse s r) (locate s.layout a.toNat s.width) s.width =
        extractAt s (locate s.layout a.toNat s.width) s.width := rfl
    simp only [appendResponse_layout, appendResponse_width, hx]
    cases extractAt s (locate s.layout a.toNat s.width) s.width with
    | ok v => exact .answer _
    | error f => exact .fault f
  · refine .ite (.ite (.answer _) ?_) (.answer _)
    have hx : cellRead (appendResponse s r) a.toNat = cellRead s a.toNat := rfl
    rw [hx]
    cases cellRead s a.toNat with
    | ok v => exact .answer _
    | error f => exact .fault f
  · exact .ite (.answer (responseWord okCode s.length 0#64)) (.answer _)
  · exact .ite (.answer (responseWord okCode (BitVec.ofNat 64 (paddingBits s.layout s.length.toNat s.width)) 0#64))
      (.answer _)
  · exact .ite (.answer (responseWord okCode (BitVec.ofNat 64 (capacityOf s)) 0#64)) (.answer _)
  · exact .ite (.ite (.answer _) (.answer _)) (.answer _)

theorem appendResponse_inj {s : State} {r r' : ResponseWord} (h : appendResponse s r = appendResponse s r') : r = r' := by
  simpa using congrArg State.responses h

/-- A reading command adds one response and nothing else, and issued again adds the same one (R48). -/
theorem exec_reading_again {i : Instr} {a b : Word} (hi : Reading i a b) {s t : State} (h : exec i s = .next t) :
    ∃ r, t = appendResponse s r ∧ exec i t = .next (appendResponse t r) := by
  obtain ⟨r, rfl, -⟩ := (exec_reading_sameReply hi s 0#136).of_next h
  obtain ⟨r', hr, h'⟩ := (exec_reading_sameReply hi s r).of_next h
  exact ⟨r, rfl, by rwa [← appendResponse_inj hr] at h'⟩

end Sys2Proof.Machine
end

section
/-! PROOFS. The statements about memory (spec/20_memory.md). -/

namespace Sys2Proof.Machine

/-- A successful SET issued again only answers again, and it alters no other element (R48). -/
theorem execSet_again {s t : State} (hs : StateInv s) (hc : s.configured = true) {i v : Word}
    (hi : i.toNat < s.length.toNat) (hv : v.toNat < 2 ^ s.width) (h : exec (.set i v) s = .next t) :
    exec (.set i v) t = .next (answered t 0x00#8 0#64 0#64) ∧
      ∀ j k : Nat, j ≠ i.toNat → k < s.width → elementBit t j k = elementBit s j k := by
  have hw := hs.width_legal hc
  obtain ⟨m, hexec, hset⟩ := execSet_writesElement hs.cells_canonical hw hc hi hv
  obtain rfl := Host.Outcome.next.inj (hexec.symm.trans h)
  obtain ⟨m', hexec', hset'⟩ :=
    execSet_writesElement (s := answered { s with cells := m } 0x00#8 0#64 0#64) hset.canonical hw hc hi hv
  have hsame : m' = m := hset.again ⟨hset'.canonical, hset'.inside, hset'.outside⟩
  exact ⟨by rw [hexec', hsame]; rfl, fun j k hij hk => hset.other hij hk⟩

/-- Settles O31, from the one reply of a reading command and from the cells after a SET being determined by its
element and value. -/
theorem readingHasNoSideEffectAndSetIsIdempotent : Obligations.ReadingHasNoSideEffectAndSetIsIdempotent := by
  refine ⟨fun i a b s t hi h => exec_reading_again hi h, fun i v s t hs hc hi hv h => ?_⟩
  obtain ⟨hagain, hother⟩ := execSet_again hs hc hi hv h
  exact ⟨hagain, fun j k _ hij hk => hother j k hij hk⟩

end Sys2Proof.Machine
end

section
/-! SUPPORT. The status of a command word: what the decoder makes of an opcode, and the answer of each command with the
status that the order of checks gives it (spec/30_encoding.md rules R60 to R66, spec/60_exceptions.md rule R180). -/

namespace Sys2Proof.Machine

/-! ### Opcodes -/

/-- The opcodes are the reserved ones and the nine of the commands (R62, R66). -/
theorem opcode_reserved_or_assigned (op : Opcode) :
    (op = 0x00#8 ∨ 0x0A#8 ≤ op) ∨ op = 0x01#8 ∨ op = 0x02#8 ∨ op = 0x03#8 ∨ op = 0x04#8 ∨ op = 0x05#8 ∨
      op = 0x06#8 ∨ op = 0x07#8 ∨ op = 0x08#8 ∨ op = 0x09#8 := by
  bv_omega

/-- One check of the row table: the command of either row chosen has the opcode. -/
theorem opcodeOf_commandOfRow_ite {op : Opcode} {a b : Word} {c : Prop} [Decidable c] {row rest : OpcodeRow}
    (hrow : c → opcodeOf (commandOfRow row op a b) = op) (hrest : opcodeOf (commandOfRow rest op a b) = op) :
    opcodeOf (commandOfRow (if c then row else rest) op a b) = op :=
  iteInduction (motive := fun row => opcodeOf (commandOfRow row op a b) = op) hrow fun _ => hrest

/-- The command of an opcode's row has that opcode: each of the ten rows of one opcode is taken only at that opcode, and
the command of a row of several carries the opcode. -/
theorem opcodeOf_commandOfRow (op : Opcode) (a b : Word) : opcodeOf (commandOfRow (rowOfOpcode op) op a b) = op := by
  unfold rowOfOpcode
  iterate 10 refine opcodeOf_commandOfRow_ite Eq.symm ?_
  iterate 5 refine opcodeOf_commandOfRow_ite (fun _ => rfl) ?_
  rfl

/-- The decoder keeps the opcode (R60). -/
theorem opcodeOf_decode (w : CommandWord) : opcodeOf (decode w) = opcodeField w := opcodeOf_commandOfRow _ _ _

/-- A word with a reserved opcode is executed as IllegalCommand (R66). -/
theorem exec_decode_reserved {w : CommandWord} (h : opcodeField w = 0x00#8 ∨ 0x0A#8 ≤ opcodeField w) (s : State) :
    exec (decode w) s = .next (answered s 0x05#8 0#64 0#64) :=
  exec_reserved (by rwa [opcodeOf_decode]) s

/-! ### The status of the table -/

section ExpectedStatus
variable (s : State) (a b : Nat)

theorem expectedStatus_reserved {op : Opcode} (h : op = 0x00#8 ∨ 0x0A#8 ≤ op) : expectedStatus s op a b = 0x05#8 :=
  if_pos h

theorem expectedStatus_cfga : expectedStatus s 0x01#8 a b = configureStatus s .aligned a b := rfl

theorem expectedStatus_cfgp : expectedStatus s 0x02#8 a b = configureStatus s .packed a b := rfl

theorem expectedStatus_get : expectedStatus s 0x03#8 a b =
    if s.configured = false then 0x06#8 else if s.length.toNat ≤ a then 0x02#8 else 0x00#8 := rfl

theorem expectedStatus_set : expectedStatus s 0x04#8 a b =
    if s.configured = false then 0x06#8 else if s.length.toNat ≤ a then 0x02#8
    else if 2 ^ s.width ≤ b then 0x03#8 else 0x00#8 := rfl

theorem expectedStatus_loc : expectedStatus s 0x08#8 a b =
    if s.configured = false then 0x06#8 else if s.length.toNat ≤ a then 0x02#8 else 0x00#8 := rfl

/-- The written-out formulas of R95 and R96 are the capacity the unit computes. -/
theorem neededCells_eq (lay : Layout) (L w : Nat) : neededCells lay L w = capacityCells lay L w := by
  cases lay <;> rfl

theorem expectedStatus_rdc : expectedStatus s 0x09#8 a b =
    if s.configured = false then 0x06#8 else if capacityOf s ≤ a then 0x07#8 else 0x00#8 := by
  rw [capacityOf, ← neededCells_eq]
  rfl

end ExpectedStatus

/-! ### Answers -/

/-- The outcome of a command in `s` is one response with the status `st`: an error response and nothing else, or OK with
some data in a state whose ports are those of `s`. -/
inductive Answers (s : State) : BitVec 8 → Host.Outcome State Fault Refusal → Prop where
  | error (st : BitVec 8) : Answers s st (.next (answered s st 0#64 0#64))
  | ok (t : State) (d0 d1 : Word) (hp : t.pending = s.pending) (hr : t.responses = s.responses) :
      Answers s 0x00#8 (.next (answered t 0x00#8 d0 d1))

/-- What the host sees of an answer (R61, R180). -/
theorem Answers.response {s : State} {st : BitVec 8} {o : Host.Outcome State Fault Refusal} (h : Answers s st o) :
    ∃ (t : State) (r : ResponseWord), o = .next t ∧ t.pending = s.pending ∧ t.responses = s.responses ++ [r] ∧
      statusField r = st ∧ (statusField r ≠ 0x00#8 → t = answered s (statusField r) 0#64 0#64) := by
  cases h with
  | error st => exact ⟨_, _, rfl, rfl, rfl, statusField_append _ _ _, fun _ => by rw [statusField_append]⟩
  | ok t d0 d1 hp hr =>
    exact ⟨_, _, rfl, hp, by rw [answered_responses, hr], statusField_append _ _ _,
      fun hne => absurd (statusField_append _ _ _) hne⟩

/-- GET of a valid index answers OK (R130). -/
theorem execGet_ok {s : State} (hw : 1 ≤ s.width ∧ s.width ≤ 64) (hc : s.configured = true) {a : Word}
    (ha : a.toNat < s.length.toNat) (b : Word) : ∃ v, exec (.get a b) s = .next (answered s 0x00#8 v 0#64) := by
  obtain ⟨v, hv, -⟩ := extractAt_spec (locate_fits (lay := s.layout) hw ha)
  have hexec : exec (.get a b) s = execGet a b s := rfl
  exact ⟨v, by rw [hexec, execGet, whenConfigured_of_true hc, if_neg (Nat.not_le.2 ha), hv]; rfl⟩

/-- Construction answers with the first of its checks that fails (R150, R154). -/
theorem configure_answers (lay : Layout) (L w : Word) (s : State) :
    Answers s (configureStatus s lay L.toNat w.toNat) (configure lay L w s) := by
  rw [configureStatus, neededCells_eq]
  obtain ⟨hw, h⟩ | ⟨hw, hcap, h⟩ | ⟨hw, hcap, h⟩ := configure_cases lay L w s
  · rw [h, if_pos (by omega)]
    exact .error _
  · rw [h, if_neg (by omega), if_pos hcap]
    exact .error _
  · rw [h, if_neg (by omega), if_neg (Nat.not_lt.2 hcap)]
    exact .ok _ _ _ rfl rfl

/-- A command whose one check is that a buffer exists (R176). -/
theorem answers_of_query {s : State} {o : Host.Outcome State Fault Refusal} {d0 d1 : Word}
    (h : (s.configured = false ∧ o = .next (answered s 0x06#8 0#64 0#64)) ∨
      (s.configured = true ∧ o = .next (answered s 0x00#8 d0 d1))) :
    Answers s (if s.configured = false then 0x06#8 else 0x00#8) o := by
  obtain ⟨hc, rfl⟩ | ⟨hc, rfl⟩ := h
  · rw [if_pos hc]
    exact .error _
  · rw [if_neg (by simp [hc])]
    exact .ok _ _ _ rfl rfl

section Commands
variable {s : State} (a b : Word)

theorem execGet_answers (hs : StateInv s) : Answers s (expectedStatus s 0x03#8 a.toNat b.toNat) (exec (.get a b) s) := by
  rw [expectedStatus_get]
  obtain ⟨hc, h⟩ | ⟨hc, ha, h⟩ | ⟨hc, ha, -⟩ := execGet_cases s a b
  · rw [h, if_pos hc]
    exact .error _
  · rw [h, if_neg (by simp [hc]), if_pos ha]
    exact .error _
  · obtain ⟨v, h⟩ := execGet_ok (hs.width_legal hc) hc ha b
    rw [h, if_neg (by simp [hc]), if_neg (Nat.not_le.2 ha)]
    exact .ok _ _ _ rfl rfl

theorem execSet_answers (hs : StateInv s) : Answers s (expectedStatus s 0x04#8 a.toNat b.toNat) (exec (.set a b) s) := by
  rw [expectedStatus_set]
  obtain ⟨hc, h⟩ | ⟨hc, ha, h⟩ | ⟨hc, ha, hb, h⟩ | ⟨hc, ha, hb, -⟩ := execSet_cases s a b
  · rw [h, if_pos hc]
    exact .error _
  · rw [h, if_neg (by simp [hc]), if_pos ha]
    exact .error _
  · rw [h, if_neg (by simp [hc]), if_neg (Nat.not_le.2 ha), if_pos hb]
    exact .error _
  · obtain ⟨m, h, -⟩ := execSet_writesElement hs.cells_canonical (hs.width_legal hc) hc ha hb
    rw [h, if_neg (by simp [hc]), if_neg (Nat.not_le.2 ha), if_neg (Nat.not_le.2 hb)]
    exact .ok _ _ _ rfl rfl

theorem execLen_answers : Answers s (expectedStatus s 0x05#8 a.toNat b.toNat) (exec (.len a b) s) :=
  answers_of_query (execLen_cases s a b)

theorem execPad_answers : Answers s (expectedStatus s 0x06#8 a.toNat b.toNat) (exec (.pad a b) s) :=
  answers_of_query (execPad_cases s a b)

theorem execCap_answers : Answers s (expectedStatus s 0x07#8 a.toNat b.toNat) (exec (.cap a b) s) :=
  answers_of_query (execCap_cases s a b)

theorem execLoc_answers : Answers s (expectedStatus s 0x08#8 a.toNat b.toNat) (exec (.loc a b) s) := by
  rw [expectedStatus_loc]
  obtain ⟨hc, h⟩ | ⟨hc, ha, h⟩ | ⟨hc, ha, h⟩ := execLoc_cases s a b
  · rw [h, if_pos hc]
    exact .error _
  · rw [h, if_neg (by simp [hc]), if_pos ha]
    exact .error _
  · rw [h, if_neg (by simp [hc]), if_neg (Nat.not_le.2 ha)]
    exact .ok _ _ _ rfl rfl

theorem execRdc_answers : Answers s (expectedStatus s 0x09#8 a.toNat b.toNat) (exec (.rdc a b) s) := by
  rw [expectedStatus_rdc]
  obtain ⟨hc, h⟩ | ⟨hc, ha, h⟩ | ⟨hc, ha, h⟩ := execRdc_cases s a b
  · rw [h, if_pos hc]
    exact .error _
  · rw [h, if_neg (by simp [hc]), if_pos ha]
    exact .error _
  · rw [h, if_neg (by simp [hc]), if_neg (Nat.not_le.2 ha)]
    exact .ok _ _ _ rfl rfl

end Commands

/-- The command of an opcode is answered with the status of the table, in every well-formed state (R63, R180). -/
theorem exec_commandOfRow_answers {s : State} (hs : StateInv s) (op : Opcode) (a b : Word) :
    Answers s (expectedStatus s op a.toNat b.toNat) (exec (commandOfRow (rowOfOpcode op) op a b) s) := by
  obtain h | rfl | rfl | rfl | rfl | rfl | rfl | rfl | rfl | rfl := opcode_reserved_or_assigned op
  · rw [expectedStatus_reserved s _ _ h, exec_reserved (by rwa [opcodeOf_commandOfRow])]
    exact .error _
  · exact configure_answers .aligned a b s
  · exact configure_answers .packed a b s
  · exact execGet_answers a b hs
  · exact execSet_answers a b hs
  · exact execLen_answers a b
  · exact execPad_answers a b
  · exact execCap_answers a b
  · exact execLoc_answers a b
  · exact execRdc_answers a b

/-- Well-formedness does not speak of the moves still to come. -/
theorem wellFormed_withPending {s : State} (hs : StateInv s) (rest : List HostMove) :
    StateInv { s with pending := rest } :=
  ⟨hs.maxCells_legal, hs.cells_canonical, hs.width_legal, hs.cells_inside, hs.capacity_fits, hs.unused_zero⟩

end Sys2Proof.Machine
end

section
/-! SUPPORT. The answer of LOC: the fields of the location word, and the cell (spec/30_encoding.md rule R68). -/

namespace Sys2Proof.Machine

/-- The fields of a location word: the four of R68, and its reserved bits 0. -/
structure LocationFields (d1 : Word) (bitOffset spanning lowBits highBits : Nat) : Prop where
  bitOffset_eq : (d1.extractLsb' 0 6).toNat = bitOffset
  spanning_eq : (d1.extractLsb' 6 1).toNat = spanning
  lowBits_eq : (d1.extractLsb' 8 7).toNat = lowBits
  highBits_eq : (d1.extractLsb' 16 7).toNat = highBits
  zero7 : (d1.extractLsb' 7 1).toNat = 0
  zero15 : (d1.extractLsb' 15 1).toNat = 0
  zero23 : (d1.extractLsb' 23 41).toNat = 0

/-- Fields in their ranges, put together by weight, do not overlap (R68). -/
theorem locationFields_ofNat {bitOffset spanning lowBits highBits : Nat} (ho : bitOffset < 64) (hs : spanning < 2)
    (hl : lowBits < 128) (hh : highBits < 128) :
    LocationFields (BitVec.ofNat 64 (bitOffset + spanning * 2 ^ 6 + lowBits * 2 ^ 8 + highBits * 2 ^ 16)) bitOffset
      spanning lowBits highBits := by
  have hsum : bitOffset + spanning * 2 ^ 6 + lowBits * 2 ^ 8 + highBits * 2 ^ 16 < 2 ^ 64 := by omega
  constructor
  all_goals
    rw [BitVec.extractLsb'_toNat, BitVec.toNat_ofNat, Nat.mod_eq_of_lt hsum, Nat.shiftRight_eq_div_pow]
    omega

/-- The location word of an element in one cell (R68). -/
theorem locationFields_single {w o : Nat} (hw : w ≤ 64) (ho : o < 64) (c : Nat) :
    LocationFields (locationWord w (.single c o)) o 0 w 0 :=
  locationFields_ofNat ho (by decide) (by omega) (by decide)

/-- The location word of an element in two cells, of which it starts in the first at bit `o` (R68). -/
theorem locationFields_spanning {w o : Nat} (hw : w ≤ 64) (ho : o < 64) (c : Nat) :
    LocationFields (locationWord w (.spanning c (64 - o) (c + 1) (w - (64 - o)))) o 1 (64 - o) (w - (64 - o)) := by
  have h : LocationFields (locationWord w (.spanning c (64 - o) (c + 1) (w - (64 - o)))) (64 - (64 - o)) 1 (64 - o)
      (w - (64 - o)) := locationFields_ofNat (by omega) (by decide) (by omega) (by omega)
  rwa [Nat.sub_sub_self ho.le] at h

/-- The location word under Aligned (R92). -/
theorem locationFields_aligned {w : Nat} (hw : 1 ≤ w ∧ w ≤ 64) (i : Nat) :
    LocationFields (locationWord w (locate .aligned i w)) (i % (64 / w) * w) 0 w 0 := by
  have hend : i % (64 / w) * w + w ≤ 64 := slot_end_le (Nat.mod_lt _ (elementsPerCell_pos hw))
  have hstart : i % (64 / w) * w < 64 := by omega
  exact locationFields_single hw.2 hstart _

theorem locate_packed_single {w i : Nat} (h : i * w % 64 + w ≤ 64) :
    locate .packed i w = .single (i * w / 64) (i * w % 64) := if_pos h

theorem locate_packed_spanning {w i : Nat} (h : ¬ i * w % 64 + w ≤ 64) : locate .packed i w =
    .spanning (i * w / 64) (64 - i * w % 64) (i * w / 64 + 1) (w - (64 - i * w % 64)) := if_neg h

/-- The location word under Packed, of an element in one cell (R93). -/
theorem locationFields_packed_single {w i : Nat} (hw : w ≤ 64) (h : i * w % 64 + w ≤ 64) :
    LocationFields (locationWord w (locate .packed i w)) (i * w % 64) 0 w 0 := by
  rw [locate_packed_single h]
  exact locationFields_single hw (Nat.mod_lt _ (by decide)) _

/-- The location word under Packed, of an element in two cells (R93). -/
theorem locationFields_packed_spanning {w i : Nat} (hw : w ≤ 64) (h : ¬ i * w % 64 + w ≤ 64) :
    LocationFields (locationWord w (locate .packed i w)) (i * w % 64) 1 (64 - i * w % 64) (w - (64 - i * w % 64)) := by
  rw [locate_packed_spanning h]
  exact locationFields_spanning hw (Nat.mod_lt _ (by decide)) _

/-- An element whose width divides 64 ends in the cell where it starts. -/
theorem mod_add_le_of_dvd {w : Nat} (hw : w ∣ 64) (i : Nat) : i * w % 64 + w ≤ 64 := by
  have hlt : i * w % 64 < 64 := Nat.mod_lt _ (by decide)
  have hle : w ≤ 64 - i * w % 64 :=
    Nat.le_of_dvd (by omega) (Nat.dvd_sub hw ((Nat.dvd_mod_iff hw).2 (Nat.dvd_mul_left w i)))
  omega

/-- An element of 64 bits is its cell, whatever the layout (R104). -/
theorem locate_width64 (lay : Layout) (i : Nat) : locate lay i 64 = .single i 0 := by
  cases lay with
  | aligned => simp [locate, locateAligned, elementsPerCell, Nat.mod_one]
  | packed => simp [locate_packed_single (mod_add_le_of_dvd (dvd_refl 64) i)]

/-- The cell where an element starts, by the formula of its layout (R92, R93). -/
def firstCell (lay : Layout) (w i : Nat) : Nat :=
  match lay with
  | .aligned => i / (64 / w)
  | .packed => i * w / 64

/-- LOC's `d0` is exactly the cell where the element starts, as long as cell indices fit a word (R68). -/
theorem locationCell_locate {lay : Layout} {L w i : Nat} (hw : 1 ≤ w ∧ w ≤ 64) (hi : i < L)
    (hcap : capacityCells lay L w ≤ 2 ^ 64) : (locationCell (locate lay i w)).toNat = firstCell lay w i := by
  have hfits := locate_fits (lay := lay) hw hi
  cases lay with
  | aligned => exact Nat.mod_eq_of_lt (hfits.1.trans_le hcap)
  | packed =>
    by_cases h : i * w % 64 + w ≤ 64
    · rw [locate_packed_single h] at hfits ⊢
      exact Nat.mod_eq_of_lt (hfits.1.trans_le hcap)
    · rw [locate_packed_spanning h] at hfits ⊢
      obtain ⟨-, hcell, -⟩ := hfits
      exact Nat.mod_eq_of_lt (by omega)

/-- The widths that LOC's corner case lists are divisors of 64 (R104). -/
theorem dvd_of_mem_dividingWidths {w : Nat} (h : w ∈ [1, 2, 4, 8, 16, 32, 64]) : w ∣ 64 :=
  (by decide : ∀ v ∈ [1, 2, 4, 8, 16, 32, 64], v ∣ 64) w h

/-- LOC of a valid index answers the element's Location (R104). -/
theorem execLoc_ok {s : State} (hc : s.configured = true) {a : Word} (ha : a.toNat < s.length.toNat) (b : Word) :
    exec (.loc a b) s = .next (answered s 0x00#8 (locationCell (locate s.layout a.toNat s.width))
      (locationWord s.width (locate s.layout a.toNat s.width))) :=
  (whenConfigured_of_true hc _).trans (if_neg (Nat.not_le.2 ha))

end Sys2Proof.Machine
end

section
/-! PROOFS. The statements about command and response words (spec/30_encoding.md). -/

namespace Sys2Proof.Machine

/-- Settles O9: the opcode chooses the command, and each command ends with the status of its first failing check. -/
theorem statusOfEveryCommand : Obligations.StatusOfEveryCommand := by
  intro s w rest hs hp
  rw [step_command hp]
  exact (exec_commandOfRow_answers (wellFormed_withPending hs rest) (opcodeField w) (operandA w) (operandB w)).response

/-- Settles O29, from the fields of the location word in each shape of Location. -/
theorem locAnswersTheLocation : Obligations.LocAnswersTheLocation := by
  intro s a b hs
  refine ⟨opcodeField_encode _, fun hc => whenConfigured_of_false hc _,
    fun hc ha => (whenConfigured_of_true hc _).trans (if_pos ha), fun hc ha => ⟨_, _, execLoc_ok hc ha b, ?_⟩⟩
  have hw := hs.width_legal hc
  have hcap : capacityOf s ≤ 2 ^ 64 := (hs.capacity_fits hc).trans (hs.maxCells_legal.2.trans (by decide))
  have hcell := locationCell_locate hw ha hcap
  have hword64 (h : s.width = 64) : locationWord s.width (locate s.layout a.toNat s.width) = 0x4000#64 := by
    rw [h, locate_width64]
    rfl
  cases hlay : s.layout with
  | aligned =>
    rw [hlay] at hcell hword64
    have f := locationFields_aligned hw a.toNat
    exact ⟨f.zero7, f.zero15, f.zero23, fun _ => f.spanning_eq, hword64, hcell, f.bitOffset_eq, f.spanning_eq,
      f.lowBits_eq, f.highBits_eq⟩
  | packed =>
    rw [hlay] at hcell hword64
    by_cases h : a.toNat * s.width % 64 + s.width ≤ 64
    · have f := locationFields_packed_single hw.2 h
      refine ⟨f.zero7, f.zero15, f.zero23, fun _ => f.spanning_eq, hword64, hcell, f.bitOffset_eq, ?_⟩
      rw [if_pos h]
      exact ⟨f.spanning_eq, f.lowBits_eq, f.highBits_eq⟩
    · have f := locationFields_packed_spanning hw.2 h
      have hndvd (hmem : s.width ∈ [1, 2, 4, 8, 16, 32, 64]) : False :=
        h (mod_add_le_of_dvd (dvd_of_mem_dividingWidths hmem) _)
      refine ⟨f.zero7, f.zero15, f.zero23, fun hmem => (hndvd hmem).elim, hword64, hcell, f.bitOffset_eq, ?_⟩
      rw [if_neg h]
      exact ⟨f.spanning_eq, f.lowBits_eq, f.highBits_eq⟩

/-- Settles O5: no meaning reads an operand that R62 marks ignored, so each pair of outcomes is one and the same. -/
theorem ignoredOperandsHaveNoEffect : Obligations.IgnoredOperandsHaveNoEffect :=
  fun _ _ _ _ _ => ⟨rfl, rfl, rfl, rfl, rfl, rfl⟩

/-- Settles O23: the decoder keeps a reserved opcode, and every command that has one raises IllegalCommand. -/
theorem reservedOpcodesAnswerIllegalCommand : Obligations.ReservedOpcodesAnswerIllegalCommand := by
  intro s w rest hp hop
  rw [step_command hp, exec_decode_reserved hop]

end Sys2Proof.Machine
end

section
/-! PROOFS. The statements about width validation (spec/40_bitwidth.md). -/

namespace Sys2Proof.Machine

/-- The width check comes first: of the three ways construction ends, an invalid width leaves only InvalidWidth, for
every layout and length (R154). -/
theorem configure_of_widthInvalid {w : Word} (hw : widthValid w.toNat = false) (lay : Layout) (L : Word) (s : State) :
    configure lay L w s = .next (answered s 0x01#8 0#64 0#64) := by
  have hout : ¬ (1 ≤ w.toNat ∧ w.toNat ≤ 64) := fun h => Bool.false_ne_true (hw.symm.trans (widthValid_iff.2 h))
  obtain ⟨-, hinvalid⟩ | ⟨hin, -⟩ | ⟨hin, -⟩ := configure_cases lay L w s
  · exact hinvalid
  · exact absurd hin hout
  · exact absurd hin hout

/-- Settles O18: both configuration commands are construction, which checks the width first. -/
theorem widthIsCheckedFirst : Obligations.WidthIsCheckedFirst := by
  refine ⟨fun _ => widthValid_iff, fun s L w hw => ⟨?_, ?_⟩⟩
  · rw [execCfga_eq, configure_of_widthInvalid hw]
  · rw [execCfgp_eq, configure_of_widthInvalid hw]

end Sys2Proof.Machine
end

section
/-! SUPPORT. Where locations end, how many cells a buffer has, and how many bits of them no element uses
(spec/41_cell_layout.md rules R92 to R101). -/

namespace Sys2Proof.Machine

/-! ### Locations -/

/-- An Aligned slot ends no later than the last slot of its cell (R92). -/
theorem slot_end_le_slots {r w : Nat} (hr : r < elementsPerCell w) : r * w + w ≤ elementsPerCell w * w := by
  rw [← Nat.succ_mul]
  exact Nat.mul_le_mul_right w hr

/-- An Aligned cell holds one element only, once two no longer fit (R92). -/
theorem elementsPerCell_eq_one {w : Nat} (hw : 33 ≤ w ∧ w ≤ 64) : elementsPerCell w = 1 :=
  Nat.div_eq_of_lt_le (by omega) (by omega)

/-- What a spanning Location says: the layout is Packed, the element runs past its first cell, and the fields are those
of R93. -/
theorem locate_eq_spanning {lay : Layout} {w i lowCell lowBits highCell highBits : Nat}
    (h : locate lay i w = .spanning lowCell lowBits highCell highBits) :
    lay = .packed ∧ 64 < i * w % 64 + w ∧ lowCell = i * w / 64 ∧ lowBits = 64 - i * w % 64 ∧
      highCell = lowCell + 1 ∧ highBits = w - lowBits := by
  cases lay with
  | aligned => cases h
  | packed =>
    by_cases hend : i * w % 64 + w ≤ 64
    · rw [locate_packed_single hend] at h
      cases h
    · rw [locate_packed_spanning hend] at h
      cases h
      exact ⟨rfl, Nat.lt_of_not_le hend, rfl, rfl, rfl, rfl⟩

/-- Under Packed the elements below index `64 div w` lie whole in cell 0 (R93). -/
theorem packed_end_le_of_lt {w i : Nat} (hi : i < 64 / w) : i * w % 64 + w ≤ 64 :=
  (Nat.add_le_add_right (Nat.mod_le _ _) w).trans (slot_end_le hi)

/-- Under Packed element `64 div w` runs past cell 0, unless it starts a cell (R93). -/
theorem packed_end_gt_of_not_dvd {w : Nat} (hw : 1 ≤ w) (hdvd : ¬ w ∣ 64) : ¬ 64 / w * w % 64 + w ≤ 64 := by
  have hrest : 64 % w ≠ 0 := fun h => hdvd (Nat.dvd_of_mod_eq_zero h)
  have hlt : 64 % w < w := Nat.mod_lt _ hw
  have hsum : 64 / w * w + 64 % w = 64 := Nat.div_add_mod' 64 w
  omega

/-! ### Capacity -/

/-- An empty buffer has no cell (R101). -/
theorem capacityCells_zero (lay : Layout) {w : Nat} (hw : 1 ≤ w ∧ w ≤ 64) : capacityCells lay 0 w = 0 := by
  have hpos := elementsPerCell_pos hw
  cases lay with
  | aligned => exact Nat.div_eq_of_lt (by omega)
  | packed => exact Nat.div_eq_of_lt (by omega)

/-- The last cell of a buffer is the one that holds the last bit of its last element (R101). -/
theorem capacityCells_succ (lay : Layout) {w : Nat} (hw : 1 ≤ w ∧ w ≤ 64) (i : Nat) :
    capacityCells lay (i + 1) w = (elementPlace lay w i (w - 1)).1 + 1 := by
  cases lay with
  | aligned =>
    have hpos := elementsPerCell_pos hw
    calc (i + 1 + elementsPerCell w - 1) / elementsPerCell w
      _ = (i + elementsPerCell w) / elementsPerCell w := by rw [Nat.add_right_comm, Nat.add_sub_cancel]
      _ = i / elementsPerCell w + 1 := Nat.add_div_right i hpos
  | packed =>
    calc ((i + 1) * w + 64 - 1) / 64
      _ = (i * w + w + 64 - 1) / 64 := by rw [Nat.succ_mul]
      _ = (i * w + (w - 1)) / 64 + 1 := by omega

/-- The capacity of a well-formed buffer is its number of cells as a 64-bit word (R9, R105). -/
theorem toNat_ofNat_capacityOf {s : State} (hs : StateInv s) (hc : s.configured = true) :
    (BitVec.ofNat 64 (capacityOf s)).toNat = capacityOf s :=
  Nat.mod_eq_of_lt ((hs.capacity_fits hc).trans_lt (hs.maxCells_legal.2.trans_lt (by decide)))

/-! ### Padding -/

/-- What is left of an Aligned cell is the remainder of the division (R97). -/
theorem paddingPerCell_eq_mod (w : Nat) : paddingPerCell w = 64 % w := Nat.mod_eq_sub_div_mul.symm

/-- Less than half of an Aligned cell is padding (R98). -/
theorem paddingPerCell_le {w : Nat} (hw : 1 ≤ w ∧ w ≤ 64) : paddingPerCell w ≤ 31 := by
  rw [paddingPerCell_eq_mod]
  by_cases hhalf : w ≤ 32
  · have hlt : 64 % w < w := Nat.mod_lt _ hw.1
    omega
  · rw [Nat.mod_eq_sub_mod hw.2, Nat.mod_eq_of_lt (by omega)]
    omega

/-- Every cell of a buffer has at most 31 bits of padding (R98). -/
theorem paddingBits_le (lay : Layout) (L : Nat) {w : Nat} (hw : 1 ≤ w ∧ w ≤ 64) :
    paddingBits lay L w ≤ 31 * capacityCells lay L w := by
  cases lay with
  | aligned => exact Nat.mul_le_mul_right _ (paddingPerCell_le hw)
  | packed => exact Nat.zero_le _

/-- A width that divides 64 leaves no padding (R98). -/
theorem paddingBits_of_dvd (lay : Layout) (L : Nat) {w : Nat} (hw : w ∣ 64) : paddingBits lay L w = 0 := by
  cases lay with
  | aligned => simp only [paddingBits, paddingPerCell_eq_mod, Nat.mod_eq_zero_of_dvd hw, Nat.zero_mul]
  | packed => rfl

/-- An empty buffer has no padding (R98). -/
theorem paddingBits_zero (lay : Layout) {w : Nat} (hw : 1 ≤ w ∧ w ≤ 64) : paddingBits lay 0 w = 0 := by
  cases lay with
  | aligned => simp only [paddingBits, capacityCells_zero .aligned hw, Nat.mul_zero]
  | packed => rfl

end Sys2Proof.Machine
end

section
/-! PROOFS. The statements about the cell layout (spec/41_cell_layout.md). -/

namespace Sys2Proof.Machine

/-- Settles O40: the Location is R92's own formula, and its slot is one of the `64 div w` of the cell. -/
theorem alignedLocations : Obligations.AlignedLocations := by
  intro i w h1 h64
  have hslot : i % elementsPerCell w < elementsPerCell w := Nat.mod_lt _ (elementsPerCell_pos ⟨h1, h64⟩)
  have hend : i % elementsPerCell w * w + w ≤ 64 := slot_end_le hslot
  have hstart : i % elementsPerCell w * w ≤ 63 := by omega
  refine ⟨_, _, rfl, rfl, rfl, slot_end_le_slots hslot, Nat.div_mul_le_self 64 w, hstart, fun h33 => ?_⟩
  rw [elementsPerCell_eq_one ⟨h33, h64⟩, Nat.mod_one, Nat.zero_mul]
  exact ⟨Nat.div_one i, rfl⟩

/-- Settles O41, by whether the element ends in the cell where it starts. -/
theorem packedLocations : Obligations.PackedLocations := by
  intro i w h1 h64
  refine ⟨?_, fun hdvd => ⟨_, _, _, _, locate_packed_spanning (packed_end_gt_of_not_dvd h1 hdvd)⟩⟩
  by_cases hend : i * w % 64 + w ≤ 64
  · rw [locate_packed_single hend]
    exact ⟨Nat.div_add_mod _ 64, by omega, hend⟩
  · rw [locate_packed_spanning hend]
    have hstart : 64 * (i * w / 64) + (64 - (64 - i * w % 64)) = i * w := by omega
    exact ⟨hstart, by omega, by omega, by omega, by omega, by omega, rfl, fun hdvd => hend (mod_add_le_of_dvd hdvd i),
      Nat.le_of_not_lt fun hi => hend (packed_end_le_of_lt hi)⟩

/-- Settles O42: a valid index has a Location that fits the buffer. -/
theorem everyLocationLiesInsideTheBuffer : Obligations.EveryLocationLiesInsideTheBuffer := by
  intro lay L w i h1 h64 hi
  have hfits := locate_fits (lay := lay) ⟨h1, h64⟩ hi
  cases hloc : locate lay i w with
  | single cell off =>
    rw [hloc] at hfits
    obtain ⟨hcell, -⟩ := hfits
    exact hcell
  | spanning lowCell lowBits highCell highBits =>
    rw [hloc] at hfits
    obtain ⟨hnext, hcell, -⟩ := hfits
    exact ⟨hnext, hcell⟩

/-- Settles O43: the last bit of the last element stands in the last cell, and it stands in the highest cell of the
element's Location. -/
theorem capacityIsMinimal : Obligations.CapacityIsMinimal := by
  intro lay L w h1 h64
  refine ⟨fun hL => hL ▸ capacityCells_zero lay ⟨h1, h64⟩, fun hL => ?_⟩
  obtain ⟨i, rfl⟩ : ∃ i, L = i + 1 := ⟨L - 1, by omega⟩
  rw [Nat.add_sub_cancel, capacityCells_succ lay ⟨h1, h64⟩, ← locationPlace_locate lay h64 (by omega)]
  cases hloc : locate lay i w with
  | single cell off => rfl
  | spanning lowCell lowBits highCell highBits =>
    obtain ⟨-, hspan, -, hlow, -, -⟩ := locate_eq_spanning hloc
    have hlast : ¬ w - 1 < lowBits := by omega
    simp only [locationPlace, if_neg hlast]

/-- Settles O44: a position is the place of a bit of one element at most. -/
theorem regionsAreDisjoint : Obligations.RegionsAreDisjoint := by
  rintro lay L w i j - - - - hij p ⟨⟨k, hk, hik⟩, ⟨l, hl, hjl⟩⟩
  exact hij (elementPlace_element_unique hk hl (hik.trans hjl.symm))

/-- Settles O27: the answer is the capacity, which fits a word because it fits `MAX_CELLS`. -/
theorem capAnswersTheCapacity : Obligations.CapAnswersTheCapacity := by
  intro s a b hs
  refine ⟨opcodeField_encode _, fun hc => ⟨_, whenConfigured_of_true hc _, ?_⟩, fun hc => whenConfigured_of_false hc _⟩
  rw [toNat_ofNat_capacityOf hs hc, neededCells_eq]
  refine ⟨rfl, hs.capacity_fits hc, fun hlen => ?_⟩
  have hzero : capacityOf s = 0 := by
    rw [capacityOf, hlen]
    exact capacityCells_zero s.layout (hs.width_legal hc)
  rw [hzero]

/-- Settles O28: the answer is the padding count, which fits a word because fewer than 32 bits of each cell are padding;
the corner cases are those of the count. -/
theorem padAnswersThePaddingCount : Obligations.PadAnswersThePaddingCount := by
  intro s a b hs
  refine ⟨opcodeField_encode _, fun hc => ⟨_, whenConfigured_of_true hc _, ?_⟩, fun hc => whenConfigured_of_false hc _⟩
  have hw := hs.width_legal hc
  have hle : paddingBits s.layout s.length.toNat s.width ≤ 31 * s.maxCells :=
    (paddingBits_le s.layout s.length.toNat hw).trans (Nat.mul_le_mul_left 31 (hs.capacity_fits hc))
  have hmax : s.maxCells ≤ 2 ^ 57 := hs.maxCells_legal.2
  have hexact : (BitVec.ofNat 64 (paddingBits s.layout s.length.toNat s.width)).toNat =
      paddingBits s.layout s.length.toNat s.width := Nat.mod_eq_of_lt (by omega)
  rw [hexact]
  refine ⟨fun hlay => ?_, fun hlay => ?_, fun hmem => ?_, fun hlen => ?_, fun hlay hlen hwidth => ?_, hle⟩
  · rw [hlay]
    rfl
  · rw [hlay]
    rfl
  · rw [paddingBits_of_dvd _ _ (dvd_of_mem_dividingWidths hmem)]
  · rw [hlen]
    exact congrArg _ (paddingBits_zero s.layout hw)
  · rw [hlay, hlen, hwidth]
    rfl

end Sys2Proof.Machine
end

section
/-! SUPPORT. The masked-word primitives as numbers: what a field read, a field write, splitting and composing are in
`div`, `mod` and powers of two (spec/42_masked_word.md rules R110 to R115). -/

namespace Sys2Proof.Machine

/-! ### Masks -/

/-- `2^n - 1` fits a word, so the mask is that number exactly (R110). -/
theorem toNat_mask {n : Nat} (hn : n ≤ 64) : (mask n).toNat = 2 ^ n - 1 := by
  have hpow : 2 ^ n ≤ 2 ^ 64 := Nat.pow_le_pow_right (by decide) hn
  exact Nat.mod_eq_of_lt (by omega)

/-- A shift to the left that loses no bit multiplies. -/
theorem toNat_shiftLeft_of_fits {x : Word} {n off : Nat} (hx : x.toNat < 2 ^ n) (hfits : off + n ≤ 64) :
    (x <<< off).toNat = x.toNat * 2 ^ off := by
  have hlt : x.toNat * 2 ^ off < 2 ^ 64 := calc
    x.toNat * 2 ^ off < 2 ^ n * 2 ^ off := Nat.mul_lt_mul_of_pos_right hx (Nat.two_pow_pos off)
    _ = 2 ^ (off + n) := by rw [← Nat.pow_add, Nat.add_comm]
    _ ≤ 2 ^ 64 := Nat.pow_le_pow_right (by decide) hfits
  rw [BitVec.toNat_shiftLeft, Nat.shiftLeft_eq, Nat.mod_eq_of_lt hlt]

/-- A mask that stays inside the word when moved up to `off` is multiplied by `2^off` (R111). -/
theorem toNat_fieldMask {off n : Nat} (hfits : off + n ≤ 64) : (fieldMask off n).toNat = (2 ^ n - 1) * 2 ^ off := by
  have hmask : (mask n).toNat = 2 ^ n - 1 := toNat_mask (by omega)
  have hlt : (mask n).toNat < 2 ^ n := hmask ▸ Nat.sub_one_lt_of_lt (Nat.two_pow_pos n)
  rw [fieldMask, toNat_shiftLeft_of_fits hlt hfits, hmask]

/-! ### Fields -/

/-- The field read is a quotient and a remainder, for every offset and every length (R112). -/
theorem toNat_extractField (x : Word) (off n : Nat) : (extractField x off n).toNat = x.toNat / 2 ^ off % 2 ^ n := by
  refine Nat.eq_of_testBit_eq fun k => ?_
  rw [Nat.testBit_mod_two_pow, Nat.testBit_div_two_pow, Nat.add_comm k off]
  exact getLsbD_extractField x off n k

/-- A word is the sum of its field at `off`, what is below the field and what is above it. -/
theorem toNat_eq_sum_fields (x : Word) (off n : Nat) :
    x.toNat = (extractField x 0 off).toNat + (extractField x off n).toNat * 2 ^ off +
      (extractField x (off + n) 64).toNat * 2 ^ (off + n) := by
  have htop : x.toNat / 2 ^ (off + n) % 2 ^ 64 = x.toNat / 2 ^ off / 2 ^ n := by
    rw [Nat.mod_eq_of_lt ((Nat.div_le_self _ _).trans_lt x.isLt), Nat.pow_add, Nat.div_div_eq_div_mul]
  rw [toNat_extractField, toNat_extractField, toNat_extractField, htop, Nat.pow_zero, Nat.div_one]
  calc x.toNat
    _ = x.toNat % 2 ^ off + 2 ^ off * (x.toNat / 2 ^ off) := (Nat.mod_add_div _ _).symm
    _ = x.toNat % 2 ^ off +
        2 ^ off * (x.toNat / 2 ^ off % 2 ^ n + 2 ^ n * (x.toNat / 2 ^ off / 2 ^ n)) := by
      rw [Nat.mod_add_div (x.toNat / 2 ^ off)]
    _ = x.toNat % 2 ^ off + x.toNat / 2 ^ off % 2 ^ n * 2 ^ off +
        x.toNat / 2 ^ off / 2 ^ n * 2 ^ (off + n) := by ring

section ReplaceField
variable {v : Word} {off n : Nat} (hv : v.toNat < 2 ^ n)
include hv

/-- The field just written reads back (R112, R113). -/
theorem extractField_replaceField_same (hfits : off + n ≤ 64) (x : Word) :
    extractField (replaceField x off n v) off n = v := by
  refine BitVec.eq_of_getLsbD_eq fun k _ => ?_
  rw [getLsbD_extractField]
  by_cases hkn : k < n
  · rw [getLsbD_replaceField hv _ _ _ (by omega), if_pos (by omega), Nat.add_sub_cancel_left]
    simp only [hkn, decide_true, Bool.true_and]
  · rw [getLsbD_eq_false_of_lt hv (Nat.le_of_not_lt hkn)]
    simp only [hkn, decide_false, Bool.false_and]

/-- A field that shares no bit with the one written reads as before (R113). -/
theorem extractField_replaceField_disjoint {off' n' : Nat} (hdis : off' + n' ≤ off ∨ off + n ≤ off') (x : Word) :
    extractField (replaceField x off n v) off' n' = extractField x off' n' := by
  refine BitVec.eq_of_getLsbD_eq fun k _ => ?_
  rw [getLsbD_extractField, getLsbD_extractField]
  by_cases hkn : k < n'
  · by_cases hbit : off' + k < 64
    · rw [getLsbD_replaceField hv _ _ _ hbit, if_neg (by omega)]
    · rw [BitVec.getLsbD_of_ge _ _ (Nat.le_of_not_lt hbit), BitVec.getLsbD_of_ge _ _ (Nat.le_of_not_lt hbit)]
  · simp only [hkn, decide_false, Bool.false_and]

/-- A field write takes the old field out of the number and puts the new one in (R113). -/
theorem toNat_replaceField_add_field (hfits : off + n ≤ 64) (x : Word) :
    (replaceField x off n v).toNat + (extractField x off n).toNat * 2 ^ off = x.toNat + v.toNat * 2 ^ off := by
  have hnew := toNat_eq_sum_fields (replaceField x off n v) off n
  have hold := toNat_eq_sum_fields x off n
  rw [extractField_replaceField_same hv hfits, extractField_replaceField_disjoint hv (.inl (by omega)),
    extractField_replaceField_disjoint hv (.inr le_rfl)] at hnew
  omega

end ReplaceField

/-! ### Splitting and composing -/

/-- The low fragment is the field of the low bits (R114). -/
theorem toNat_splitValue_low (v : Word) (low : Nat) : (splitValue v low).1.toNat = v.toNat % 2 ^ low := by
  have hfield : (splitValue v low).1 = extractField v 0 low := by rw [splitValue, extractField, BitVec.ushiftRight_zero]
  rw [hfield, toNat_extractField, Nat.pow_zero, Nat.div_one]

/-- The carry is the quotient (R114). -/
theorem toNat_splitValue_high (v : Word) (low : Nat) : (splitValue v low).2.toNat = v.toNat / 2 ^ low := by
  rw [splitValue, BitVec.toNat_ushiftRight, Nat.shiftRight_eq_div_pow]

/-- Fragments that fit beside each other do not overlap, so composing adds them by weight (R115). -/
theorem toNat_composeValue {lo hi : Word} {low high : Nat} (hlo : lo.toNat < 2 ^ low) (hhi : hi.toNat < 2 ^ high)
    (hfits : low + high ≤ 64) : (composeValue lo hi low).toNat = hi.toNat * 2 ^ low + lo.toNat := by
  rw [composeValue, BitVec.toNat_or, toNat_shiftLeft_of_fits hhi hfits, ← Nat.shiftLeft_eq,
    ← Nat.shiftLeft_add_eq_or_of_lt hlo]

/-- Composing undoes splitting (R115). -/
theorem composeValue_splitValue (v : Word) {low : Nat} (hlow : low ≤ 64) :
    composeValue (splitValue v low).1 (splitValue v low).2 low = v := by
  have hfits : low + (64 - low) = 64 := by omega
  have hcarry : (splitValue v low).2.toNat < 2 ^ (64 - low) := splitValue_high_lt (hfits.symm ▸ v.isLt)
  refine BitVec.eq_of_toNat_eq ?_
  rw [toNat_composeValue (splitValue_low_lt v low) hcarry hfits.le, toNat_splitValue_low, toNat_splitValue_high,
    Nat.div_add_mod']

end Sys2Proof.Machine
end

section
/-! SUPPORT. Reading back what was inserted at a Location (spec/42_masked_word.md rule R118). -/

namespace Sys2Proof.Machine

/-- An insertion that answers went to cells of the buffer, so a Location that fits some number of cells fits the
buffer. -/
theorem locationFits_of_insertAt {s t : State} {l : Location} {w cap : Nat} {v : Word} (hfits : locationFits w cap l)
    (h : insertAt s l w v = .ok t) : locationFits w (capacityOf s) l := by
  cases l with
  | single cell bitOffset =>
    obtain ⟨-, hend⟩ := hfits
    obtain ⟨hcell, -⟩ := maskedWrite_eq_ok h
    exact ⟨hcell, hend⟩
  | spanning lowCell lowBits highCell highBits =>
    obtain ⟨hnext, -, hbits⟩ := hfits
    simp only [insertAt] at h
    cases hlow : maskedWrite s lowCell (64 - lowBits) lowBits (splitValue v lowBits).1 with
    | error f =>
      rw [hlow] at h
      cases h
    | ok s' =>
      rw [hlow] at h
      obtain ⟨-, rfl⟩ := maskedWrite_eq_ok hlow
      obtain ⟨hhigh, -⟩ := maskedWrite_eq_ok h
      exact ⟨hnext, hhigh, hbits⟩

/-- After an insertion at a Location that fits, extraction there answers the value inserted, bit by bit (R118). -/
theorem extractAt_of_insertAt {s t : State} {l : Location} {w : Nat} {v : Word} (hm : Memory.wf s.cells = true)
    (hfits : locationFits w (capacityOf s) l) (hv : v.toNat < 2 ^ w) (h : insertAt s l w v = .ok t) :
    extractAt t l w = .ok v := by
  obtain ⟨m, hins, -, hinside, -⟩ := insertAt_spec hm hfits hv
  obtain rfl : { s with cells := m } = t := Except.ok.inj (hins.symm.trans h)
  obtain ⟨v', hext, hbits⟩ := extractAt_spec (s := { s with cells := m }) hfits
  have hsame : v' = v := BitVec.eq_of_getLsbD_eq fun k hk => by
    rw [hbits k hk]
    by_cases hkw : k < w
    · rw [hinside k hkw, decide_eq_true hkw, Bool.true_and]
    · rw [getLsbD_eq_false_of_lt hv (Nat.le_of_not_lt hkw), decide_eq_false hkw, Bool.false_and]
  rw [hext, hsame]

end Sys2Proof.Machine
end

section
/-! PROOFS. The statements about masked words (spec/42_masked_word.md). -/

namespace Sys2Proof.Machine

/-- Settles O46, from the number each primitive computes. -/
theorem maskedWordsAsNumbers : Obligations.MaskedWordsAsNumbers := by
  refine ⟨fun n => toNat_mask, fun off n => toNat_fieldMask, toNat_extractField, fun x v off n hfits hv => ?_,
    fun v low high hlow hv => ?_, fun lo hi low high => toNat_composeValue⟩
  · rw [← toNat_extractField]
    exact toNat_replaceField_add_field hv hfits x
  · exact ⟨toNat_splitValue_low v low, toNat_splitValue_high v low, splitValue_high_lt hv,
      composeValue_splitValue v (by omega)⟩

/-- Settles O47: the Location of an index has the shape the layout gives it, and the successful insertion shows that it
lies inside the buffer. -/
theorem readAfterWriteAtALocation : Obligations.ReadAfterWriteAtALocation := by
  intro s t lay i w v hm h1 h64 hv h
  have hshape := locate_fits (lay := lay) ⟨h1, h64⟩ (Nat.lt_succ_self i)
  exact extractAt_of_insertAt hm (locationFits_of_insertAt hshape h) hv h

end Sys2Proof.Machine
end

section
/-! SUPPORT. The value of an element: what GET reads, and what each command and each undisturbed run leaves of it
(spec/43_extract_insert.md rules R130 to R136). -/

namespace Sys2Proof.Machine

/-! ### What GET reads -/

/-- An element holds one value. -/
theorem elementHolds_unique {s : State} {i : Nat} {v v' : Word} (h : elementHolds s i v) (h' : elementHolds s i v') :
    v = v' :=
  BitVec.eq_of_getLsbD_eq fun k hk => (h k hk).trans (h' k hk).symm

/-- What an element holds fits its width (R136). -/
theorem elementHolds_lt {s : State} {i : Nat} {v : Word} (h : elementHolds s i v) : v.toNat < 2 ^ s.width := by
  refine toNat_lt_of_getLsbD fun k hwk => ?_
  by_cases hk : k < 64
  · rw [h k hk, decide_eq_false (Nat.not_lt.2 hwk), Bool.false_and]
  · exact BitVec.getLsbD_of_ge v k (Nat.le_of_not_lt hk)

/-- GET of a valid index answers what the element holds (R130). -/
theorem execGet_elementHolds {s : State} (hw : 1 ≤ s.width ∧ s.width ≤ 64) (hc : s.configured = true) {a : Word}
    (ha : a.toNat < s.length.toNat) (b : Word) :
    ∃ v, exec (.get a b) s = .next (answered s 0x00#8 v 0#64) ∧ elementHolds s a.toNat v := by
  obtain ⟨v, hext, hbits⟩ := extractAt_spec (locate_fits (lay := s.layout) hw ha)
  refine ⟨v, ?_, fun k hk => ?_⟩
  · have hexec : exec (.get a b) s = execGet a b s := rfl
    rw [hexec, execGet, whenConfigured_of_true hc, if_neg (Nat.not_le.2 ha), hext]
    rfl
  · rw [hbits k hk]
    by_cases hkw : k < s.width
    · rw [locationPlace_locate s.layout hw.2 hkw, elementBit]
    · rw [decide_eq_false hkw, Bool.false_and, Bool.false_and]

/-- GET of element `i` reads `v`: the buffer exists, the index is valid and the element holds the value. It says of the
rest of the state only what keeping it needs, so that every undisturbed step keeps it. -/
structure ElementReads (s : State) (i v : Word) : Prop where
  canonical : Memory.wf s.cells = true
  configured : s.configured = true
  width_legal : 1 ≤ s.width ∧ s.width ≤ 64
  index_valid : i.toNat < s.length.toNat
  holds : elementHolds s i.toNat v

/-- What `ElementReads` says is what the host sees (R130). -/
theorem ElementReads.execGet {s : State} {i v : Word} (h : ElementReads s i v) (b : Word) :
    exec (.get i b) s = .next (answered s 0x00#8 v 0#64) := by
  obtain ⟨v', hget, hholds⟩ := execGet_elementHolds h.width_legal h.configured h.index_valid b
  rw [hget, elementHolds_unique hholds h.holds]

/-- Every valid element of a well-formed buffer reads some value. -/
theorem exists_elementReads {s : State} (hs : StateInv s) (hc : s.configured = true) {i : Word}
    (hi : i.toNat < s.length.toNat) : ∃ v, ElementReads s i v := by
  obtain ⟨v, -, hholds⟩ := execGet_elementHolds (hs.width_legal hc) hc hi 0#64
  exact ⟨v, hs.cells_canonical, hc, hs.width_legal hc, hi, hholds⟩

/-! ### What leaves an element as it is -/

/-- The ports are not part of the buffer. -/
theorem ElementReads.withPorts {s : State} {i v : Word} (h : ElementReads s i v) (ms : List HostMove)
    (rs : List ResponseWord) : ElementReads { s with pending := ms, responses := rs } i v :=
  ⟨h.canonical, h.configured, h.width_legal, h.index_valid, h.holds⟩

theorem ElementReads.appendResponse {s : State} {i v : Word} (h : ElementReads s i v) (r : ResponseWord) :
    ElementReads (appendResponse s r) i v := h.withPorts s.pending (s.responses ++ [r])

theorem ElementReads.answered {s : State} {i v : Word} (h : ElementReads s i v) (st : BitVec 8) (d0 d1 : Word) :
    ElementReads (answered s st d0 d1) i v := h.appendResponse _

/-- A write of another element (R133). -/
theorem ElementReads.writeOther {s : State} {i j v x : Word} {m : Memory} (h : ElementReads s i v) (hij : i ≠ j)
    (hwrite : WritesElement s j.toNat x m) : ElementReads { s with cells := m } i v where
  canonical := hwrite.canonical
  configured := h.configured
  width_legal := h.width_legal
  index_valid := h.index_valid
  holds k hk := by
    rw [h.holds k hk]
    by_cases hkw : k < s.width
    · rw [hwrite.other (BitVec.toNat_ne_iff_ne.2 hij) hkw]
    · rw [decide_eq_false hkw, Bool.false_and, Bool.false_and]

/-! ### What gives an element its value -/

/-- A write of the element (R132). -/
theorem WritesElement.elementReads {s : State} {i v : Word} {m : Memory} (hwrite : WritesElement s i.toNat v m)
    (hw : 1 ≤ s.width ∧ s.width ≤ 64) (hc : s.configured = true) (hi : i.toNat < s.length.toNat)
    (hv : v.toNat < 2 ^ s.width) : ElementReads { s with cells := m } i v where
  canonical := hwrite.canonical
  configured := hc
  width_legal := hw
  index_valid := hi
  holds k _ := by
    by_cases hkw : k < s.width
    · rw [decide_eq_true hkw, Bool.true_and]
      exact (hwrite.inside k hkw).symm
    · rw [decide_eq_false hkw, Bool.false_and]
      exact getLsbD_eq_false_of_lt hv (Nat.le_of_not_lt hkw)

/-- Construction (R134, R150). -/
theorem construct_elementReads {L i : Word} {w : Nat} (hw : 1 ≤ w ∧ w ≤ 64) (hi : i.toNat < L.toNat) (lay : Layout)
    (s : State) : ElementReads (construct lay L w s) i 0#64 where
  canonical := Memory.construct_wf lay L w s
  configured := rfl
  width_legal := hw
  index_valid := hi
  holds k _ := by simp [elementBit, cellBit]

/-! ### Commands -/

/-- Construction only answers, unless it succeeds (R150). -/
theorem configure_next {lay : Layout} {L w : Word} {s t : State} (h : configure lay L w s = .next t) :
    (∃ r, t = appendResponse s r) ∨ configureStatus s lay L.toNat w.toNat = 0x00#8 := by
  rw [configureStatus, neededCells_eq]
  obtain ⟨-, herr⟩ | ⟨-, -, herr⟩ | ⟨hw, hcap, -⟩ := configure_cases lay L w s
  · exact .inl ⟨_, Host.Outcome.next.inj (h.symm.trans herr)⟩
  · exact .inl ⟨_, Host.Outcome.next.inj (h.symm.trans herr)⟩
  · exact .inr (by rw [if_neg (by omega), if_neg (Nat.not_lt.2 hcap)])

/-- SET only answers, unless it succeeds and writes its element (R131). -/
theorem execSet_next {s t : State} (hm : Memory.wf s.cells = true) (hw : 1 ≤ s.width ∧ s.width ≤ 64) {a b : Word}
    (h : exec (.set a b) s = .next t) :
    (∃ r, t = appendResponse s r) ∨
      (expectedStatus s 0x04#8 a.toNat b.toNat = 0x00#8 ∧
        ∃ m, t = answered { s with cells := m } 0x00#8 0#64 0#64 ∧ WritesElement s a.toNat b m) := by
  obtain ⟨-, herr⟩ | ⟨-, -, herr⟩ | ⟨-, -, -, herr⟩ | ⟨hc, ha, hb, -⟩ := execSet_cases s a b
  · exact .inl ⟨_, Host.Outcome.next.inj (h.symm.trans herr)⟩
  · exact .inl ⟨_, Host.Outcome.next.inj (h.symm.trans herr)⟩
  · exact .inl ⟨_, Host.Outcome.next.inj (h.symm.trans herr)⟩
  · obtain ⟨m, hok, hwrite⟩ := execSet_writesElement hm hw hc ha hb
    refine .inr ⟨?_, m, Host.Outcome.next.inj (h.symm.trans hok), hwrite⟩
    rw [expectedStatus_set, if_neg (by simp [hc]), if_neg (Nat.not_le.2 ha), if_neg (Nat.not_le.2 hb)]

/-- A reading command only answers (R48). -/
theorem exec_reading_next {i : Instr} {a b : Word} (hi : Reading i a b) {s t : State} (h : exec i s = .next t) :
    ∃ r, t = appendResponse s r := by
  obtain ⟨r, ht, -⟩ := exec_reading_again hi h
  exact ⟨r, ht⟩

/-- What a command word can do to the buffer: nothing but answer, construct a buffer, or write one element, and the last
two only with the status OK (R24 to R29, R180). -/
theorem exec_commandOfRow_next {s t : State} (hm : Memory.wf s.cells = true) (hw : 1 ≤ s.width ∧ s.width ≤ 64)
    {op : Opcode} {a b : Word} (h : exec (commandOfRow (rowOfOpcode op) op a b) s = .next t) :
    (∃ r, t = appendResponse s r) ∨
      ((op = 0x01#8 ∨ op = 0x02#8) ∧ expectedStatus s op a.toNat b.toNat = 0x00#8) ∨
      (op = 0x04#8 ∧ expectedStatus s op a.toNat b.toNat = 0x00#8 ∧
        ∃ m, t = answered { s with cells := m } 0x00#8 0#64 0#64 ∧ WritesElement s a.toNat b m) := by
  obtain hop | rfl | rfl | rfl | rfl | rfl | rfl | rfl | rfl | rfl := opcode_reserved_or_assigned op
  · rw [exec_reserved (by rwa [opcodeOf_commandOfRow])] at h
    exact .inl ⟨_, (Host.Outcome.next.inj h).symm⟩
  · exact (configure_next h).imp_right fun hok => .inl ⟨.inl rfl, hok⟩
  · exact (configure_next h).imp_right fun hok => .inl ⟨.inr rfl, hok⟩
  · exact .inl (exec_reading_next (.inl rfl) h)
  · exact (execSet_next hm hw h).imp_right fun hok => .inr ⟨rfl, hok⟩
  · exact .inl (exec_reading_next (.inr (.inr (.inl rfl))) h)
  · exact .inl (exec_reading_next (.inr (.inr (.inr (.inl rfl)))) h)
  · exact .inl (exec_reading_next (.inr (.inr (.inr (.inr (.inl rfl))))) h)
  · exact .inl (exec_reading_next (.inr (.inr (.inr (.inr (.inr rfl))))) h)
  · exact .inl (exec_reading_next (.inr (.inl rfl)) h)

/-! ### Undisturbed runs -/

/-- A successful configuration disturbs every element. -/
theorem disturbs_of_configuration {s : State} {w : CommandWord} (hop : opcodeField w = 0x01#8 ∨ opcodeField w = 0x02#8)
    (hok : expectedStatus s (opcodeField w) (operandA w).toNat (operandB w).toNat = 0x00#8) (i : Word) :
    disturbs s i (.command w) = true := by
  rw [disturbs, hok]
  obtain hop | hop := hop <;> rw [hop] <;> rfl

/-- A successful SET disturbs its own element. -/
theorem disturbs_of_set {s : State} {w : CommandWord} (hop : opcodeField w = 0x04#8)
    (hok : expectedStatus s (opcodeField w) (operandA w).toNat (operandB w).toNat = 0x00#8) :
    disturbs s (operandA w) (.command w) = true := by
  rw [disturbs, hok, hop, beq_self_eq_true (operandA w)]
  rfl

/-- A command that does not disturb the element leaves its value (R132, R134). -/
theorem ElementReads.exec_decode {s t : State} {i v : Word} (h : ElementReads s i v) {w : CommandWord}
    (hcalm : disturbs s i (.command w) = false) (hexec : exec (decode w) s = .next t) : ElementReads t i v := by
  obtain ⟨r, rfl⟩ | ⟨hop, hok⟩ | ⟨hop, hok, m, rfl, hwrite⟩ := exec_commandOfRow_next h.canonical h.width_legal hexec
  · exact h.appendResponse r
  · exact absurd (disturbs_of_configuration hop hok i) (Bool.eq_false_iff.1 hcalm)
  · have hij : i ≠ operandA w := fun hi => Bool.eq_false_iff.1 hcalm (hi ▸ disturbs_of_set hop hok)
    exact (h.writeOther hij hwrite).answered _ _ _

/-- A step whose move does not disturb the element leaves its value (R132, R134). -/
theorem ElementReads.step {s t : State} {i v : Word} (h : ElementReads s i v)
    (hcalm : ∀ m rest, s.pending = m :: rest → disturbs s i m = false) (hstep : step s = .next t) :
    ElementReads t i v := by
  cases hp : s.pending with
  | nil =>
    obtain rfl := Host.Outcome.next.inj ((step_idle hp).symm.trans hstep)
    exact h
  | cons m rest =>
    have hm := hcalm m rest hp
    cases m with
    | reset => cases hm
    | commandCutShort w => cases hm
    | command w =>
      rw [step_command hp] at hstep
      exact (h.withPorts rest s.responses).exec_decode hm hstep

/-- An undisturbed run leaves the value of the element (R132, R134). -/
theorem ElementReads.run {i v : Word} {u : State} (n : Nat) {s : State} (h : ElementReads s i v)
    (hcalm : undisturbed i n s) (hrun : Host.Core.run Sys2Proof.core n s = .next u) : ElementReads u i v := by
  induction n generalizing s with
  | zero =>
    obtain rfl := Host.Outcome.next.inj ((run_zero s).symm.trans hrun)
    exact h
  | succ n ih =>
    obtain ⟨t, hstep, hrest⟩ := run_succ_inv hrun
    obtain ⟨hfirst, hthen⟩ := hcalm
    exact ih (h.step hfirst hstep) (hthen t hstep) hrest

/-! ### Errors -/

/-- GET that has a next state is answered, in any state (R130). -/
theorem execGet_next_answers {s t : State} {a b : Word} (h : exec (.get a b) s = .next t) :
    ∃ st, Answers s st (.next t) := by
  obtain ⟨-, hget⟩ | ⟨-, -, hget⟩ | ⟨-, -, ⟨v, -, hget⟩ | ⟨f, hfault⟩⟩ := execGet_cases s a b
  · rw [← h, hget]
    exact ⟨_, .error _⟩
  · rw [← h, hget]
    exact ⟨_, .error _⟩
  · rw [← h, hget]
    exact ⟨_, .ok s _ _ rfl rfl⟩
  · cases h.symm.trans hfault

/-- SET that has a next state is answered, in any state (R131). -/
theorem execSet_next_answers {s t : State} {a b : Word} (h : exec (.set a b) s = .next t) :
    ∃ st, Answers s st (.next t) := by
  obtain ⟨-, hset⟩ | ⟨-, -, hset⟩ | ⟨-, -, -, hset⟩ | ⟨-, -, -, ⟨t', hins, hset⟩ | ⟨f, hfault⟩⟩ := execSet_cases s a b
  · rw [← h, hset]
    exact ⟨_, .error _⟩
  · rw [← h, hset]
    exact ⟨_, .error _⟩
  · rw [← h, hset]
    exact ⟨_, .error _⟩
  · obtain ⟨m, rfl, -⟩ := insertAt_eq_ok hins
    rw [← h, hset]
    exact ⟨_, .ok { s with cells := m } _ _ rfl rfl⟩
  · cases h.symm.trans hfault

/-- An error answer is all that changed, and carries no data (R178, R181). -/
theorem Answers.error_response {s t : State} {st : BitVec 8} (h : Answers s st (.next t)) {r : ResponseWord}
    (hr : t.responses = s.responses ++ [r]) (herr : statusField r ≠ 0x00#8) :
    t = { s with responses := t.responses } ∧ d0Field r = 0#64 ∧ d1Field r = 0#64 := by
  obtain ⟨t', r', ht, -, hr', -, honly⟩ := h.response
  obtain rfl := Host.Outcome.next.inj ht
  obtain rfl : r = r' := by simpa using hr.symm.trans hr'
  have ht := honly herr
  have hword : statusField r ++ 0#64 ++ 0#64 = r := by
    rw [ht, answered_responses] at hr
    simpa using hr
  refine ⟨by rw [ht]; rfl, ?_, ?_⟩
  · rw [← hword, d0Field_append]
  · rw [← hword, d1Field_append]

end Sys2Proof.Machine
end

section
/-! PROOFS. The statements about extraction and insertion (spec/43_extract_insert.md). -/

namespace Sys2Proof.Machine

/-- Settles O37: a successful SET gives the element its value, and an undisturbed run leaves it. -/
theorem getAnswersTheLastSet : Obligations.GetAnswersTheLastSet := by
  intro s t u i v b n hs hc hi hv hset hcalm hrun
  have hw := hs.width_legal hc
  obtain ⟨m, hok, hwrite⟩ := execSet_writesElement hs.cells_canonical hw hc hi hv
  obtain rfl := Host.Outcome.next.inj (hok.symm.trans hset)
  have hreads := (hwrite.elementReads hw hc hi hv).answered 0x00#8 0#64 0#64
  exact (hreads.run n hcalm hrun).execGet b

/-- A configuration whose checks pass leaves every element reading 0 (R134, R150). -/
theorem configure_elementReads {lay : Layout} {L w i : Word} {s t : State} (hw : widthValid w.toNat = true)
    (hcap : capacityCells lay L.toNat w.toNat ≤ s.maxCells) (hi : i.toNat < L.toNat)
    (h : configure lay L w s = .next t) : ElementReads t i 0#64 := by
  have hw := widthValid_iff.1 hw
  obtain ⟨hinvalid, -⟩ | ⟨-, hexceeded, -⟩ | ⟨-, -, hok⟩ := configure_cases lay L w s
  · exact absurd hw hinvalid
  · exact absurd hcap (Nat.not_le.2 hexceeded)
  · obtain rfl := Host.Outcome.next.inj (hok.symm.trans h)
    exact (construct_elementReads hw hi lay s).answered _ _ _

/-- Settles O39: a successful configuration gives every element the value 0, and an undisturbed run leaves it. -/
theorem freshBufferReadsZero : Obligations.FreshBufferReadsZero := by
  intro s t u L w i b n _ hw hi hcfg hcalm hrun
  have hreads : ElementReads t i 0#64 := by
    obtain ⟨hcap, h⟩ | ⟨hcap, h⟩ := hcfg
    · exact configure_elementReads hw hcap hi h
    · exact configure_elementReads hw hcap hi h
  exact (hreads.run n hcalm hrun).execGet b

/-- Settles O25: whatever the state, a GET or SET that does not fault is answered, and an error answer is all it does. -/
theorem failedGetOrSetChangesNothing : Obligations.FailedGetOrSetChangesNothing := by
  intro s t a b r h hr herr
  obtain ⟨st, hans⟩ := h.elim execGet_next_answers execSet_next_answers
  exact hans.error_response hr herr

/-- Settles O33: GET answers what the element holds, which fits its width. -/
theorem getAnswersBelowTwoToTheWidth : Obligations.GetAnswersBelowTwoToTheWidth := by
  intro s t a b d0 d1 hs hc ha hget hr
  obtain ⟨v, hok, hholds⟩ := execGet_elementHolds (hs.width_legal hc) hc ha b
  obtain rfl := Host.Outcome.next.inj (hok.symm.trans hget)
  obtain ⟨-, rfl, -⟩ := answered_inj (s := s) hr
  exact elementHolds_lt hholds

/-- Settles O38: the SET writes its element only, so each other element reads what it read before. -/
theorem setLeavesOtherElements : Obligations.SetLeavesOtherElements := by
  intro s t i j v b hs hc hi hj hij hv hset
  obtain ⟨m, hok, hwrite⟩ := execSet_writesElement hs.cells_canonical (hs.width_legal hc) hc hj hv
  obtain rfl := Host.Outcome.next.inj (hok.symm.trans hset)
  obtain ⟨x, hreads⟩ := exists_elementReads hs hc hi
  exact ⟨⟨x, hreads.execGet b, ((hreads.writeOther hij hwrite).answered _ _ _).execGet b⟩, hwrite.outside⟩

end Sys2Proof.Machine
end

section
/-! SUPPORT. Configuration and queries: the three outcomes of construction each under its own condition, what commands
do to `length`, and the whole cell as a masked read (spec/44_config_query.md). -/

namespace Sys2Proof.Machine

/-! ### Construction -/

/-- The capacity check is the second: with a legal width, a buffer of too many cells is refused (R154). -/
theorem configure_of_capacityExceeded {lay : Layout} {L w : Word} {s : State} (hw : 1 ≤ w.toNat ∧ w.toNat ≤ 64)
    (hcap : s.maxCells < capacityCells lay L.toNat w.toNat) :
    configure lay L w s = .next (answered s 0x04#8 0#64 0#64) := by
  obtain ⟨hinvalid, -⟩ | ⟨-, -, hexceeded⟩ | ⟨-, hfits, -⟩ := configure_cases lay L w s
  · exact absurd hw hinvalid
  · exact hexceeded
  · exact absurd hcap (Nat.not_lt.2 hfits)

/-- A buffer that passes both checks is constructed (R150). -/
theorem configure_of_fits {lay : Layout} {L w : Word} {s : State} (hw : 1 ≤ w.toNat ∧ w.toNat ≤ 64)
    (hcap : capacityCells lay L.toNat w.toNat ≤ s.maxCells) :
    configure lay L w s = .next (answered (construct lay L w.toNat s) 0x00#8 0#64 0#64) := by
  obtain ⟨hinvalid, -⟩ | ⟨-, hexceeded, -⟩ | ⟨-, -, hok⟩ := configure_cases lay L w s
  · exact absurd hw hinvalid
  · exact absurd hcap (Nat.not_le.2 hexceeded)
  · exact hok

/-- What R151 and R152 say of either layout: two errors in order, or a fresh buffer of the layout's capacity in which
every element reads 0. -/
theorem configure_outcome (lay : Layout) (L w : Word) (s : State) :
    (w.toNat = 0 ∨ 64 < w.toNat → configure lay L w s = .next (answered s 0x01#8 0#64 0#64)) ∧
    (1 ≤ w.toNat → w.toNat ≤ 64 → s.maxCells < capacityCells lay L.toNat w.toNat →
      configure lay L w s = .next (answered s 0x04#8 0#64 0#64)) ∧
    (1 ≤ w.toNat → w.toNat ≤ 64 → capacityCells lay L.toNat w.toNat ≤ s.maxCells →
      ∃ t : State, configure lay L w s = .next t ∧
        t = answered (construct lay L w.toNat s) 0x00#8 0#64 0#64 ∧
        capacityOf t = capacityCells lay L.toNat w.toNat ∧
        ∀ i b : Word, i.toNat < L.toNat → exec (.get i b) t = .next (answered t 0x00#8 0#64 0#64)) := by
  refine ⟨fun hw => configure_of_widthInvalid ?_ lay L s,
    fun h1 h64 hcap => configure_of_capacityExceeded ⟨h1, h64⟩ hcap,
    fun h1 h64 hcap => ⟨_, configure_of_fits ⟨h1, h64⟩ hcap, rfl, ?_, fun i b hi => ?_⟩⟩
  · have hout : ¬ (1 ≤ w.toNat ∧ w.toNat ≤ 64) := by omega
    exact Bool.eq_false_iff.2 (mt widthValid_iff.1 hout)
  · rw [capacityOf_answered, capacityOf_construct]
  · have hreads := (construct_elementReads ⟨h1, h64⟩ hi lay s).answered 0x00#8 0#64 0#64
    exact hreads.execGet b

/-- A fresh buffer keeps `MAX_CELLS` and the ports of the old state, and nothing else (R153). -/
theorem construct_congr {s t : State} (hmax : s.maxCells = t.maxCells) (hpend : s.pending = t.pending)
    (hresp : s.responses = t.responses) (lay : Layout) (L : Word) (w : Nat) :
    construct lay L w s = construct lay L w t := by
  simp only [construct, hmax, hpend, hresp]

/-- Construction in two states with the same `MAX_CELLS` and ports: the checks look at `MAX_CELLS` only, so both states
fail alike, or both come to the same fresh buffer (R153). -/
theorem configure_discards {s t : State} (hmax : s.maxCells = t.maxCells) (hpend : s.pending = t.pending)
    (hresp : s.responses = t.responses) (lay : Layout) (L w : Word) :
    (∃ u : State, configure lay L w s = .next u ∧ configure lay L w t = .next u ∧ u.configured = true ∧
      u.length = L ∧ u.width = w.toNat ∧ u.layout = lay ∧ ∀ c : Nat, Memory.read u.cells c = 0#64) ∨
    (∃ e : BitVec 8, e ≠ 0x00#8 ∧ configure lay L w s = .next (answered s e 0#64 0#64) ∧
      configure lay L w t = .next (answered t e 0#64 0#64)) := by
  by_cases hw : widthValid w.toNat = true
  · have hlegal := widthValid_iff.1 hw
    by_cases hcap : capacityCells lay L.toNat w.toNat ≤ s.maxCells
    · have ht := configure_of_fits hlegal (hmax ▸ hcap)
      rw [← construct_congr hmax hpend hresp] at ht
      exact .inl ⟨_, configure_of_fits hlegal hcap, ht, rfl, rfl, rfl, rfl, Memory.read_nil⟩
    · have hexceeded := Nat.lt_of_not_le hcap
      exact .inr ⟨0x04#8, by decide, configure_of_capacityExceeded hlegal hexceeded,
        configure_of_capacityExceeded hlegal (hmax ▸ hexceeded)⟩
  · have hinvalid := Bool.eq_false_iff.2 hw
    exact .inr ⟨0x01#8, by decide, configure_of_widthInvalid hinvalid lay L s,
      configure_of_widthInvalid hinvalid lay L t⟩

/-! ### The length -/

/-- Construction writes `length` exactly when it answers OK (R150, R155). -/
theorem configure_length {lay : Layout} {L w : Word} {s t : State} (h : configure lay L w s = .next t) :
    t.length = if configureStatus s lay L.toNat w.toNat = 0x00#8 then L else s.length := by
  obtain ⟨hw, herr⟩ | ⟨hw, hcap, herr⟩ | ⟨hw, hcap, hok⟩ := configure_cases lay L w s
  · have hst : configureStatus s lay L.toNat w.toNat = 0x01#8 := if_pos (by omega)
    obtain rfl := Host.Outcome.next.inj (herr.symm.trans h)
    rw [hst, if_neg (by decide), answered_length]
  · have hst : configureStatus s lay L.toNat w.toNat = 0x04#8 := by
      rw [configureStatus, neededCells_eq, if_neg (by omega), if_pos hcap]
    obtain rfl := Host.Outcome.next.inj (herr.symm.trans h)
    rw [hst, if_neg (by decide), answered_length]
  · have hst : configureStatus s lay L.toNat w.toNat = 0x00#8 := by
      rw [configureStatus, neededCells_eq, if_neg (by omega), if_neg (Nat.not_lt.2 hcap)]
    obtain rfl := Host.Outcome.next.inj (hok.symm.trans h)
    rw [hst, if_pos rfl, answered_length, construct_length]

/-- A reading command leaves `length` (R48). -/
theorem exec_reading_length {i : Instr} {a b : Word} (hi : Reading i a b) {s t : State} (h : exec i s = .next t) :
    t.length = s.length := by
  obtain ⟨r, rfl⟩ := exec_reading_next hi h
  exact appendResponse_length s r

/-- SET leaves `length`, in any state and whether or not it succeeds (R131). -/
theorem execSet_length {s t : State} {a b : Word} (h : exec (.set a b) s = .next t) : t.length = s.length := by
  obtain ⟨-, herr⟩ | ⟨-, -, herr⟩ | ⟨-, -, -, herr⟩ | ⟨-, -, -, ⟨t', hins, hok⟩ | ⟨f, hfault⟩⟩ := execSet_cases s a b
  · obtain rfl := Host.Outcome.next.inj (herr.symm.trans h)
    exact answered_length _ _ _ _
  · obtain rfl := Host.Outcome.next.inj (herr.symm.trans h)
    exact answered_length _ _ _ _
  · obtain rfl := Host.Outcome.next.inj (herr.symm.trans h)
    exact answered_length _ _ _ _
  · obtain ⟨m, rfl, -⟩ := insertAt_eq_ok hins
    obtain rfl := Host.Outcome.next.inj (hok.symm.trans h)
    exact answered_length _ _ _ _
  · cases hfault.symm.trans h

/-- No command but CFGA and CFGP writes `length` (R27). -/
theorem exec_commandOfRow_length_of_not_configuration {s t : State} {op : Opcode} {a b : Word}
    (hop : ¬ (op = 0x01#8 ∨ op = 0x02#8)) (h : exec (commandOfRow (rowOfOpcode op) op a b) s = .next t) :
    t.length = s.length := by
  obtain hres | rfl | rfl | rfl | rfl | rfl | rfl | rfl | rfl | rfl := opcode_reserved_or_assigned op
  · rw [exec_reserved (by rwa [opcodeOf_commandOfRow])] at h
    obtain rfl := Host.Outcome.next.inj h
    exact answered_length _ _ _ _
  · exact absurd (.inl rfl) hop
  · exact absurd (.inr rfl) hop
  · exact exec_reading_length (.inl rfl) h
  · exact execSet_length h
  · exact exec_reading_length (.inr (.inr (.inl rfl))) h
  · exact exec_reading_length (.inr (.inr (.inr (.inl rfl)))) h
  · exact exec_reading_length (.inr (.inr (.inr (.inr (.inl rfl))))) h
  · exact exec_reading_length (.inr (.inr (.inr (.inr (.inr rfl))))) h
  · exact exec_reading_length (.inr (.inl rfl)) h

/-- What a command word does to `length`, in any state (R27, R155). -/
theorem exec_decode_length {s t : State} {w : CommandWord} (h : exec (decode w) s = .next t) :
    t.length =
      if (opcodeField w = 0x01#8 ∨ opcodeField w = 0x02#8) ∧
          expectedStatus s (opcodeField w) (operandA w).toNat (operandB w).toNat = 0x00#8
      then operandA w else s.length := by
  unfold decode at h
  generalize opcodeField w = op at h ⊢
  by_cases hop : op = 0x01#8 ∨ op = 0x02#8
  · simp only [hop, true_and]
    obtain rfl | rfl := hop
    · rw [expectedStatus_cfga]
      exact configure_length h
    · rw [expectedStatus_cfgp]
      exact configure_length h
  · rw [if_neg fun hcfg => hop hcfg.1]
    exact exec_commandOfRow_length_of_not_configuration hop h

/-! ### Whole cells -/

/-- The field of all 64 bits is the word (R110, R112). -/
theorem extractField_full (x : Word) : extractField x 0 64 = x := by
  refine BitVec.eq_of_getLsbD_eq fun k hk => ?_
  rw [getLsbD_extractField, decide_eq_true hk, Bool.true_and, Nat.zero_add]

/-- A buffer of no element has no cell, even where `width` is no legal width (R101). -/
theorem capacityOf_of_length_zero {s : State} (h : s.length = 0#64) : capacityOf s = 0 := by
  have hL : s.length.toNat = 0 := congrArg BitVec.toNat h
  rw [capacityOf, hL]
  cases s.layout with
  | aligned =>
    refine Nat.div_eq_zero_iff.2 ?_
    omega
  | packed =>
    rw [capacityCells, Nat.zero_mul]
    rfl

/-- RDC of no cell of the buffer answers CellOutOfRange (R177). -/
theorem execRdc_of_outside {s : State} (hc : s.configured = true) {a : Word} (ha : capacityOf s ≤ a.toNat) (b : Word) :
    exec (.rdc a b) s = .next (answered s 0x07#8 0#64 0#64) := by
  obtain ⟨hc', -⟩ | ⟨-, -, hout⟩ | ⟨-, hin, -⟩ := execRdc_cases s a b
  · exact absurd (hc.symm.trans hc') (by decide)
  · exact hout
  · exact absurd ha (Nat.not_le.2 hin)

/-- RDC of a cell of the buffer answers what the cell holds (R156). -/
theorem execRdc_of_inside {s : State} (hc : s.configured = true) {a : Word} (ha : a.toNat < capacityOf s) (b : Word) :
    exec (.rdc a b) s = .next (answered s 0x00#8 (Memory.read s.cells a.toNat) 0#64) := by
  obtain ⟨hc', -⟩ | ⟨-, hout, -⟩ | ⟨-, -, hin⟩ := execRdc_cases s a b
  · exact absurd (hc.symm.trans hc') (by decide)
  · exact absurd ha (Nat.not_lt.2 hout)
  · exact hin

end Sys2Proof.Machine
end

section
/-! PROOFS. The statements about configuration and queries (spec/44_config_query.md). -/

namespace Sys2Proof.Machine

/-- Settles O16: CFGA is construction of an Aligned buffer. -/
theorem cfgaConstructsAnAlignedBuffer : Obligations.CfgaConstructsAnAlignedBuffer :=
  fun s L w => ⟨opcodeField_encode (.cfga L w), configure_outcome .aligned L w s⟩

/-- Settles O17: CFGP is construction of a Packed buffer. -/
theorem cfgpConstructsAPackedBuffer : Obligations.CfgpConstructsAPackedBuffer :=
  fun s L w => ⟨opcodeField_encode (.cfgp L w), configure_outcome .packed L w s⟩

/-- Settles O19: both commands are construction, which discards the old buffer. -/
theorem configurationDiscardsTheOldBuffer : Obligations.ConfigurationDiscardsTheOldBuffer := by
  intro i L w s t hi hmax hpend hresp
  obtain rfl | rfl := hi
  · refine (configure_discards hmax hpend hresp .aligned L w).imp_left ?_
    rintro ⟨u, hs, ht, hc, hL, hw, hlay, hzero⟩
    exact ⟨u, hs, ht, hc, hL, hw, fun _ => hlay, nofun, hzero⟩
  · refine (configure_discards hmax hpend hresp .packed L w).imp_left ?_
    rintro ⟨u, hs, ht, hc, hL, hw, hlay, hzero⟩
    exact ⟨u, hs, ht, hc, hL, hw, nofun, fun _ => hlay, hzero⟩

/-- Settles O26: LEN asks only that a buffer exists, and of all commands only a successful configuration writes
`length`. -/
theorem lenAnswersTheLength : Obligations.LenAnswersTheLength := by
  refine ⟨fun s a b => ⟨opcodeField_encode (.len a b), fun hc => whenConfigured_of_true hc _,
    fun hc => whenConfigured_of_false hc _⟩, fun s t w rest hpend hstep => ?_⟩
  rw [step_command hpend] at hstep
  -- Neither `length` nor the status depends on the moves pending.
  have hlength := exec_decode_length hstep
  exact hlength

/-- Settles O30, from the outcomes of RDC, the full field being the whole word, and the unused bits of a well-formed
buffer being 0. -/
theorem rdcAnswersTheCell : Obligations.RdcAnswersTheCell := by
  intro s a b
  refine ⟨opcodeField_encode (.rdc a b), fun hc => whenConfigured_of_false hc _,
    fun hc hout => execRdc_of_outside hc hout b, fun hc hin => ⟨execRdc_of_inside hc hin b, ?_, ?_⟩,
    fun hc hL => execRdc_of_outside hc ?_ b⟩
  · rw [maskedRead_inside hin, extractField_full]
  · exact fun hs k hfree => hs.unused_zero hc (a.toNat, k) hfree
  · rw [capacityOf_of_length_zero hL]
    exact Nat.zero_le _

end Sys2Proof.Machine
end

section
/-! SUPPORT. Which error each command raises, said once for every command and every state: the seven conditions of
spec/60_exceptions.md rules R171 to R177, and that an error answer is given exactly under the condition of its error. -/

namespace Sys2Proof.Machine

/-! ### The conditions -/

/-- The configuration command of a layout (R151, R152). -/
def configureCommand (lay : Layout) (L w : Word) : Instr :=
  match lay with
  | .aligned => .cfga L w
  | .packed => .cfgp L w

/-- The commands of the seven reserved rows (R66). -/
def IsReserved : Instr → Prop
  | .cfga _ _ | .cfgp _ _ | .get _ _ | .set _ _ | .len _ _ | .pad _ _ | .cap _ _ | .loc _ _ | .rdc _ _ => False
  | .reserved00 _ _ | .reserved0A _ _ _ | .reserved0C _ _ _ | .reserved10 _ _ _ | .reserved20 _ _ _
  | .reserved40 _ _ _ | .reserved80 _ _ _ => True

/-- The commands that R176 says need a buffer. -/
def NeedsBuffer (i : Instr) : Prop :=
  ∃ a b : Word, i = .get a b ∨ i = .set a b ∨ i = .len a b ∨ i = .pad a b ∨ i = .cap a b ∨ i = .loc a b ∨ i = .rdc a b

/-- The condition under which the command `i` raises the error in `s` (R171 to R177). -/
def ErrorCondition (s : State) (i : Instr) : CommandError → Prop
  | .invalidWidth => ∃ L w : Word, (i = .cfga L w ∨ i = .cfgp L w) ∧ widthValid w.toNat = false
  | .indexOutOfBounds =>
    s.configured = true ∧ ∃ a b : Word, (i = .get a b ∨ i = .set a b ∨ i = .loc a b) ∧ s.length.toNat ≤ a.toNat
  | .valueTooWide =>
    s.configured = true ∧ ∃ a b : Word, i = .set a b ∧ a.toNat < s.length.toNat ∧ 2 ^ s.width ≤ b.toNat
  | .capacityExceeded =>
    ∃ (lay : Layout) (L w : Word), i = configureCommand lay L w ∧ widthValid w.toNat = true ∧
      s.maxCells < capacityCells lay L.toNat w.toNat
  | .illegalCommand => IsReserved i
  | .notConfigured => s.configured = false ∧ NeedsBuffer i
  | .cellOutOfRange => s.configured = true ∧ ∃ a b : Word, i = .rdc a b ∧ capacityOf s ≤ a.toNat

theorem exec_configureCommand (lay : Layout) (L w : Word) (s : State) :
    exec (configureCommand lay L w) s = configure lay L w s := by
  cases lay <;> rfl

/-- A row's opcodes are no smaller than its pattern. -/
theorem le_of_opcodeInRow {op mask pattern : Opcode} (h : opcodeInRow op mask pattern = true) : pattern ≤ op := by
  obtain rfl : op &&& mask = pattern := beq_iff_eq.1 h
  exact Nat.and_le_left

/-- The reserved rows are the opcodes `0x00` and `0x0A` to `0xFF` (R66). -/
theorem isReserved_iff_opcode {i : Instr} (h : i.wellFormed = true) :
    IsReserved i ↔ opcodeOf i = 0x00#8 ∨ 0x0A#8 ≤ opcodeOf i := by
  cases i with
  | cfga | cfgp | get | set | len | pad | cap | loc | rdc => simp [IsReserved, opcodeOf]
  | reserved00 => exact ⟨fun _ => .inl rfl, fun _ => trivial⟩
  | reserved0A | reserved0C | reserved10 | reserved20 | reserved40 | reserved80 =>
    exact ⟨fun _ => .inr (BitVec.le_trans (by decide) (le_of_opcodeInRow h)), fun _ => trivial⟩

/-! ### A command whose condition holds raises the error -/

/-- The first check of a command after the check for a buffer. -/
theorem whenConfigured_firstCheck {s : State} (hc : s.configured = true) {p : Prop} [Decidable p] (hp : p)
    (e : CommandError) (k : Host.Outcome State Fault Refusal) :
    whenConfigured s (if p then raiseError e s else k) = .next (answered s (errorCode e) 0#64 0#64) := by
  rw [whenConfigured_of_true hc, if_pos hp, raiseError_eq]

/-- SET of a valid index checks the value next (R131, R173). -/
theorem execSet_of_valueTooWide {s : State} (hc : s.configured = true) {a b : Word} (ha : a.toNat < s.length.toNat)
    (hb : 2 ^ s.width ≤ b.toNat) : exec (.set a b) s = .next (answered s 0x03#8 0#64 0#64) := by
  have hexec : exec (.set a b) s = execSet a b s := rfl
  rw [hexec, execSet, whenConfigured_of_true hc, if_neg (Nat.not_le.2 ha), if_pos hb]
  rfl

/-- The check for a buffer comes first, whatever the operands (R176). -/
theorem exec_of_not_configured {s : State} (hc : s.configured = false) {i : Instr} (hi : NeedsBuffer i) :
    exec i s = .next (answered s 0x06#8 0#64 0#64) := by
  obtain ⟨a, b, rfl | rfl | rfl | rfl | rfl | rfl | rfl⟩ := hi <;> exact whenConfigured_of_false hc _

theorem exec_of_isReserved {i : Instr} (hi : IsReserved i) (s : State) :
    exec i s = .next (answered s 0x05#8 0#64 0#64) := by
  cases i with
  | cfga | cfgp | get | set | len | pad | cap | loc | rdc => exact hi.elim
  | reserved00 | reserved0A | reserved0C | reserved10 | reserved20 | reserved40 | reserved80 => rfl

theorem exec_of_errorCondition {s : State} {i : Instr} {e : CommandError} (h : ErrorCondition s i e) :
    exec i s = .next (answered s (errorCode e) 0#64 0#64) := by
  cases e with
  | invalidWidth =>
    obtain ⟨L, w, rfl | rfl, hw⟩ := h
    · exact configure_of_widthInvalid hw .aligned L s
    · exact configure_of_widthInvalid hw .packed L s
  | indexOutOfBounds =>
    obtain ⟨hc, a, b, rfl | rfl | rfl, ha⟩ := h <;> exact whenConfigured_firstCheck hc ha _ _
  | valueTooWide =>
    obtain ⟨hc, a, b, rfl, ha, hb⟩ := h
    exact execSet_of_valueTooWide hc ha hb
  | capacityExceeded =>
    obtain ⟨lay, L, w, rfl, hw, hcap⟩ := h
    rw [exec_configureCommand]
    exact configure_of_capacityExceeded (widthValid_iff.1 hw) hcap
  | illegalCommand => exact exec_of_isReserved h s
  | notConfigured =>
    obtain ⟨hc, hi⟩ := h
    exact exec_of_not_configured hc hi
  | cellOutOfRange =>
    obtain ⟨hc, a, b, rfl, ha⟩ := h
    exact execRdc_of_outside hc ha b

/-! ### A command ends in no other error -/

/-- The outcome of the command `i` in `s` is an error whose condition holds, or an OK response, or a fault. -/
inductive EndsByItsConditions (s : State) (i : Instr) : Host.Outcome State Fault Refusal → Prop where
  | error (e : CommandError) (h : ErrorCondition s i e) :
    EndsByItsConditions s i (.next (answered s (errorCode e) 0#64 0#64))
  | ok (t : State) (d0 d1 : Word) (hr : t.responses = s.responses) :
    EndsByItsConditions s i (.next (answered t okCode d0 d1))
  | fault (f : Fault) : EndsByItsConditions s i (.fault f)

theorem configure_endsByItsConditions (lay : Layout) (L w : Word) (s : State) :
    EndsByItsConditions s (configureCommand lay L w) (configure lay L w s) := by
  obtain ⟨hw, h⟩ | ⟨hw, hcap, h⟩ | ⟨-, -, h⟩ := configure_cases lay L w s
  · have hinvalid : widthValid w.toNat = false := Bool.eq_false_iff.2 (mt widthValid_iff.1 hw)
    rw [h]
    exact .error .invalidWidth ⟨L, w, by cases lay <;> simp [configureCommand], hinvalid⟩
  · rw [h]
    exact .error .capacityExceeded ⟨lay, L, w, rfl, widthValid_iff.2 hw, hcap⟩
  · rw [h]
    exact .ok (construct lay L w.toNat s) _ _ rfl

/-- A command whose one check is that a buffer exists. -/
theorem endsByItsConditions_of_query {s : State} {i : Instr} (hi : NeedsBuffer i)
    {o : Host.Outcome State Fault Refusal} {d0 d1 : Word}
    (h : (s.configured = false ∧ o = .next (answered s 0x06#8 0#64 0#64)) ∨
      (s.configured = true ∧ o = .next (answered s 0x00#8 d0 d1))) : EndsByItsConditions s i o := by
  obtain ⟨hc, rfl⟩ | ⟨-, rfl⟩ := h
  · exact .error .notConfigured ⟨hc, hi⟩
  · exact .ok s _ _ rfl

section Commands
variable (s : State) (a b : Word)

theorem execGet_endsByItsConditions : EndsByItsConditions s (.get a b) (exec (.get a b) s) := by
  obtain ⟨hc, h⟩ | ⟨hc, ha, h⟩ | ⟨-, -, ⟨v, -, h⟩ | ⟨f, h⟩⟩ := execGet_cases s a b <;> rw [h]
  · exact .error .notConfigured ⟨hc, a, b, by simp⟩
  · exact .error .indexOutOfBounds ⟨hc, a, b, by simp, ha⟩
  · exact .ok s _ _ rfl
  · exact .fault f

theorem execSet_endsByItsConditions : EndsByItsConditions s (.set a b) (exec (.set a b) s) := by
  obtain ⟨hc, h⟩ | ⟨hc, ha, h⟩ | ⟨hc, ha, hb, h⟩ | ⟨-, -, -, ⟨t, ht, h⟩ | ⟨f, h⟩⟩ := execSet_cases s a b <;> rw [h]
  · exact .error .notConfigured ⟨hc, a, b, by simp⟩
  · exact .error .indexOutOfBounds ⟨hc, a, b, by simp, ha⟩
  · exact .error .valueTooWide ⟨hc, a, b, rfl, ha, hb⟩
  · obtain ⟨m, rfl, -⟩ := insertAt_eq_ok ht
    exact .ok { s with cells := m } _ _ rfl
  · exact .fault f

theorem execLoc_endsByItsConditions : EndsByItsConditions s (.loc a b) (exec (.loc a b) s) := by
  obtain ⟨hc, h⟩ | ⟨hc, ha, h⟩ | ⟨-, -, h⟩ := execLoc_cases s a b <;> rw [h]
  · exact .error .notConfigured ⟨hc, a, b, by simp⟩
  · exact .error .indexOutOfBounds ⟨hc, a, b, by simp, ha⟩
  · exact .ok s _ _ rfl

theorem execRdc_endsByItsConditions : EndsByItsConditions s (.rdc a b) (exec (.rdc a b) s) := by
  obtain ⟨hc, h⟩ | ⟨hc, ha, h⟩ | ⟨-, -, h⟩ := execRdc_cases s a b <;> rw [h]
  · exact .error .notConfigured ⟨hc, a, b, by simp⟩
  · exact .error .cellOutOfRange ⟨hc, a, b, rfl, ha⟩
  · exact .ok s _ _ rfl

end Commands

theorem exec_endsByItsConditions (i : Instr) (s : State) : EndsByItsConditions s i (exec i s) := by
  cases i with
  | cfga L w => exact configure_endsByItsConditions .aligned L w s
  | cfgp L w => exact configure_endsByItsConditions .packed L w s
  | get a b => exact execGet_endsByItsConditions s a b
  | set a b => exact execSet_endsByItsConditions s a b
  | len a b => exact endsByItsConditions_of_query ⟨a, b, by simp⟩ (execLen_cases s a b)
  | pad a b => exact endsByItsConditions_of_query ⟨a, b, by simp⟩ (execPad_cases s a b)
  | cap a b => exact endsByItsConditions_of_query ⟨a, b, by simp⟩ (execCap_cases s a b)
  | loc a b => exact execLoc_endsByItsConditions s a b
  | rdc a b => exact execRdc_endsByItsConditions s a b
  | reserved00 | reserved0A | reserved0C | reserved10 | reserved20 | reserved40 | reserved80 =>
    exact .error .illegalCommand trivial

/-! ### Errors, exactly under their conditions -/

/-- The seven errors have seven codes (R170). -/
theorem errorCode_injective : Function.Injective errorCode := by
  intro e e'
  cases e <;> cases e' <;> decide

theorem errorCode_ne_okCode (e : CommandError) : okCode ≠ errorCode e := by
  cases e <;> decide

/-- One state after an answer has one status, also where the answers were given to states that differ elsewhere. -/
theorem status_eq_of_answered_eq {s t : State} {st st' : BitVec 8} {d0 d0' d1 d1' : Word}
    (hr : t.responses = s.responses) (h : answered t st d0 d1 = answered s st' d0' d1') : st = st' := by
  have hresp : (answered t st d0 d1).responses = (answered s st d0 d1).responses := by
    rw [answered_responses, answered_responses, hr]
  obtain ⟨hst, -, -⟩ := answered_inj (hresp.symm.trans (congrArg State.responses h))
  exact hst

/-- In every state, a command is answered with an error, and nothing else changes, exactly under the condition of that
error (R171 to R178). -/
theorem exec_eq_error_iff (i : Instr) (s : State) (e : CommandError) :
    exec i s = .next (answered s (errorCode e) 0#64 0#64) ↔ ErrorCondition s i e := by
  refine ⟨fun h => ?_, exec_of_errorCondition⟩
  have hends := exec_endsByItsConditions i s
  generalize exec i s = o at h hends
  cases hends with
  | error e' hcond =>
    have hcode := status_eq_of_answered_eq rfl (Host.Outcome.next.inj h)
    rwa [← errorCode_injective hcode]
  | ok t d0 d1 hr =>
    have hcode := status_eq_of_answered_eq hr (Host.Outcome.next.inj h)
    exact absurd hcode (errorCode_ne_okCode e)
  | fault f => cases h

/-- No value is too wide for 64 bits (R173). -/
theorem not_valueTooWide_of_width64 {s : State} (hw : s.width = 64) (i : Instr) :
    ¬ ErrorCondition s i .valueTooWide := by
  rintro ⟨-, a, b, -, -, hb⟩
  rw [hw] at hb
  exact absurd hb (Nat.not_le.2 b.isLt)

end Sys2Proof.Machine
end

section
/-! PROOFS. The statements about errors (spec/60_exceptions.md). -/

namespace Sys2Proof.Machine

/-- Settles O20, the conditions of the two errors of CFGA and CFGP. -/
theorem configurationErrorsExactlyWhen : Obligations.ConfigurationErrorsExactlyWhen :=
  fun i s => ⟨exec_eq_error_iff i s .invalidWidth, exec_eq_error_iff i s .capacityExceeded⟩

/-- Settles O21, the conditions of the three errors about an operand and the buffer; a 64-bit value is below `2^64`. -/
theorem bufferErrorsExactlyWhen : Obligations.BufferErrorsExactlyWhen :=
  fun i s => ⟨exec_eq_error_iff i s .indexOutOfBounds, exec_eq_error_iff i s .valueTooWide,
    exec_eq_error_iff i s .cellOutOfRange,
    fun hw => mt (exec_eq_error_iff i s .valueTooWide).1 (not_valueTooWide_of_width64 hw i)⟩

/-- Settles O22: the commands with a reserved opcode are those of the reserved rows, and the check for a buffer is the
first of the commands that need one. -/
theorem commandErrorsExactlyWhen : Obligations.CommandErrorsExactlyWhen :=
  fun i s hwf => ⟨(exec_eq_error_iff i s .illegalCommand).trans (isReserved_iff_opcode hwf),
    exec_eq_error_iff i s .notConfigured⟩

end Sys2Proof.Machine
end

section
/-! SUPPORT. The rows of spec/opcode_table.json as ranges of opcodes: a row is a pattern with some low bits free, and each
opcode lies in exactly the row the decoder chooses (spec/30_encoding.md rules R62, R63, R66). -/

namespace Sys2Proof

/-- The least opcode of a row: the match byte of spec/opcode_table.json. -/
def rowPattern : OpcodeRow → Opcode
  | .op01 => 0x01#8
  | .op02 => 0x02#8
  | .op03 => 0x03#8
  | .op04 => 0x04#8
  | .op05 => 0x05#8
  | .op06 => 0x06#8
  | .op07 => 0x07#8
  | .op08 => 0x08#8
  | .op09 => 0x09#8
  | .op00 => 0x00#8
  | .op0Ato0B => 0x0A#8
  | .op0Cto0F => 0x0C#8
  | .op10to1F => 0x10#8
  | .op20to3F => 0x20#8
  | .op40to7F => 0x40#8
  | .op80toFF => 0x80#8

/-- How many low opcode bits a row leaves free. -/
def rowFreeBits : OpcodeRow → Nat
  | .op01 | .op02 | .op03 | .op04 | .op05 | .op06 | .op07 | .op08 | .op09 | .op00 => 0
  | .op0Ato0B => 1
  | .op0Cto0F => 2
  | .op10to1F => 4
  | .op20to3F => 5
  | .op40to7F => 6
  | .op80toFF => 7

/-- The mask byte of a row: every bit but the free ones. -/
def rowMask (row : OpcodeRow) : Opcode := BitVec.allOnes 8 <<< rowFreeBits row

/-- The 136-bit match and mask of a row are its two bytes in the opcode field, over operands that are not looked at. -/
theorem tableRow_eq (row : OpcodeRow) :
    tableRow row = (commandWord (rowPattern row) 0#64 0#64, commandWord (rowMask row) 0#64 0#64) := by
  cases row <;> rfl

/-- An opcode lies in a row exactly when it agrees with the row's pattern once the free bits are cut off. -/
theorem opcodeInRow_iff_div (op : Opcode) (row : OpcodeRow) :
    opcodeInRow op (rowMask row) (rowPattern row) = true ↔
      op.toNat / 2 ^ rowFreeBits row * 2 ^ rowFreeBits row = (rowPattern row).toNat := by
  have hmask : (op &&& rowMask row).toNat = op.toNat / 2 ^ rowFreeBits row * 2 ^ rowFreeBits row := by
    have hle : op.toNat / 2 ^ rowFreeBits row * 2 ^ rowFreeBits row < 2 ^ 8 :=
      (Nat.div_mul_le_self _ _).trans_lt op.isLt
    rw [rowMask, ← BitVec.shiftLeft_ushiftRight, BitVec.toNat_shiftLeft, BitVec.toNat_ushiftRight,
      Nat.shiftRight_eq_div_pow, Nat.shiftLeft_eq, Nat.mod_eq_of_lt hle]
  rw [opcodeInRow, beq_iff_eq, ← BitVec.toNat_inj, hmask]

/-- The opcode lies between the least and the greatest opcode of the row. -/
def InRange (op : Opcode) (row : OpcodeRow) : Prop :=
  (rowPattern row).toNat ≤ op.toNat ∧ op.toNat < (rowPattern row).toNat + 2 ^ rowFreeBits row

/-- The opcodes of a row are a range, because the row's pattern has its free bits 0. -/
theorem opcodeInRow_iff_inRange (op : Opcode) (row : OpcodeRow) :
    opcodeInRow op (rowMask row) (rowPattern row) = true ↔ InRange op row := by
  rw [opcodeInRow_iff_div, InRange]
  cases row <;> simp only [rowPattern, rowFreeBits, BitVec.toNat_ofNat] <;> omega

/-- The decoder's tests for the rows of several opcodes, as ranges. -/
theorem rowOfOpcode_eq_ranges (op : Opcode) : rowOfOpcode op =
    if op.toNat = 1 then .op01 else if op.toNat = 2 then .op02 else if op.toNat = 3 then .op03
    else if op.toNat = 4 then .op04 else if op.toNat = 5 then .op05 else if op.toNat = 6 then .op06
    else if op.toNat = 7 then .op07 else if op.toNat = 8 then .op08 else if op.toNat = 9 then .op09
    else if op.toNat = 0 then .op00
    else if 10 ≤ op.toNat ∧ op.toNat < 12 then .op0Ato0B
    else if 12 ≤ op.toNat ∧ op.toNat < 16 then .op0Cto0F
    else if 16 ≤ op.toNat ∧ op.toNat < 32 then .op10to1F
    else if 32 ≤ op.toNat ∧ op.toNat < 64 then .op20to3F
    else if 64 ≤ op.toNat ∧ op.toNat < 128 then .op40to7F
    else .op80toFF := by
  have h0A : opcodeInRow op 0xFE#8 0x0A#8 = true ↔ 10 ≤ op.toNat ∧ op.toNat < 12 := opcodeInRow_iff_inRange op .op0Ato0B
  have h0C : opcodeInRow op 0xFC#8 0x0C#8 = true ↔ 12 ≤ op.toNat ∧ op.toNat < 16 := opcodeInRow_iff_inRange op .op0Cto0F
  have h10 : opcodeInRow op 0xF0#8 0x10#8 = true ↔ 16 ≤ op.toNat ∧ op.toNat < 32 := opcodeInRow_iff_inRange op .op10to1F
  have h20 : opcodeInRow op 0xE0#8 0x20#8 = true ↔ 32 ≤ op.toNat ∧ op.toNat < 64 := opcodeInRow_iff_inRange op .op20to3F
  have h40 : opcodeInRow op 0xC0#8 0x40#8 = true ↔ 64 ≤ op.toNat ∧ op.toNat < 128 := opcodeInRow_iff_inRange op .op40to7F
  simp only [rowOfOpcode, ← BitVec.toNat_inj, h0A, h0C, h10, h20, h40, BitVec.toNat_ofNat]

/-- Every opcode lies in the row the decoder chooses (R63). -/
theorem inRange_rowOfOpcode (op : Opcode) : InRange op (rowOfOpcode op) := by
  have hop : op.toNat < 256 := op.isLt
  rw [rowOfOpcode_eq_ranges]
  -- Fifteen tests, each that of its row; what passes none of them is at least `0x80`.
  iterate 15 refine iteInduction (fun _ => ?_) fun _ => ?_; rotate_left
  all_goals
    simp only [InRange, rowPattern, rowFreeBits, BitVec.toNat_ofNat]
    omega

/-- An opcode of a row is decoded to that row, so no two rows overlap. -/
theorem rowOfOpcode_eq_of_inRange {op : Opcode} {row : OpcodeRow} (h : InRange op row) : rowOfOpcode op = row := by
  rw [rowOfOpcode_eq_ranges]
  cases row <;> simp only [InRange, rowPattern, rowFreeBits, BitVec.toNat_ofNat] at h <;>
    simp (disch := omega) only [if_pos, if_neg]

/-- The rows partition the opcodes (R62). -/
theorem opcodeInRow_iff_eq_rowOfOpcode (op : Opcode) (row : OpcodeRow) :
    opcodeInRow op (rowMask row) (rowPattern row) = true ↔ row = rowOfOpcode op :=
  (opcodeInRow_iff_inRange op row).trans
    ⟨fun h => (rowOfOpcode_eq_of_inRange h).symm, fun h => h ▸ inRange_rowOfOpcode op⟩

/-- A command word matches a row of the table exactly when its opcode lies in the row. -/
theorem matches_tableRow_iff (w : CommandWord) (row : OpcodeRow) :
    w &&& (tableRow row).2 = (tableRow row).1 ↔ opcodeInRow (opcodeField w) (rowMask row) (rowPattern row) = true := by
  rw [tableRow_eq, opcodeInRow, beq_iff_eq]
  conv_lhs => rw [← commandWord_fields w, Laws.commandWord_and_opcodeMask]
  refine ⟨fun h => ?_, fun h => by rw [h]⟩
  simpa only [opcodeField_commandWord] using congrArg opcodeField h

/-! ### The command of a row -/

section CommandOfRow
variable (row : OpcodeRow) (op : Opcode) (a b : Word)

@[simp] theorem rowOf_commandOfRow : rowOf (commandOfRow row op a b) = row := by cases row <;> rfl

@[simp] theorem operandsOf_commandOfRow : operandsOf (commandOfRow row op a b) = (a, b) := by cases row <;> rfl

end CommandOfRow

/-- A command is well-formed exactly when its opcode lies in its row (R66). -/
theorem wellFormed_iff (i : Instr) :
    i.wellFormed = true ↔ opcodeInRow (opcodeOf i) (rowMask (rowOf i)) (rowPattern (rowOf i)) = true := by
  cases i with
  | cfga | cfgp | get | set | len | pad | cap | loc | rdc | reserved00 =>
    simp only [Instr.wellFormed, opcodeOf, rowOf, true_iff]
    decide
  | reserved0A | reserved0C | reserved10 | reserved20 | reserved40 | reserved80 =>
    simp only [Instr.wellFormed, opcodeOf, rowOf]
    rfl

/-- A command is put together from its row, its opcode and its operands. -/
theorem commandOfRow_fields (i : Instr) : commandOfRow (rowOf i) (opcodeOf i) (operandsOf i).1 (operandsOf i).2 = i := by
  cases i <;> rfl

/-- The decoded command is that of the row the opcode lies in. -/
theorem rowOf_decode (w : CommandWord) : rowOf (decode w) = rowOfOpcode (opcodeField w) := rowOf_commandOfRow _ _ _ _

/-- The decoder keeps the operands (R60). -/
theorem operandsOf_decode (w : CommandWord) : operandsOf (decode w) = (operandA w, operandB w) :=
  operandsOf_commandOfRow _ _ _ _

/-- The decoder finds the row of a well-formed command again, because its opcode lies in no other (R60, R62). -/
theorem decode_encode {i : Instr} (h : i.wellFormed = true) : decode (encode i) = i := by
  have hrow : rowOf i = rowOfOpcode (opcodeOf i) := (opcodeInRow_iff_eq_rowOfOpcode _ _).1 ((wellFormed_iff i).1 h)
  rw [decode, opcodeField_encode, operandA_encode, operandB_encode, ← hrow, commandOfRow_fields]

/-- The decoder is total: it yields a well-formed command for every word (R63, R66). -/
theorem decode_wellFormed (w : CommandWord) : (decode w).wellFormed = true := by
  rw [wellFormed_iff, opcodeInRow_iff_eq_rowOfOpcode, rowOf_decode, Machine.opcodeOf_decode]

/-- The decoder loses no bit (R60, R67). -/
theorem encode_decode (w : CommandWord) : encode (decode w) = w := by
  rw [encode, Machine.opcodeOf_decode, operandsOf_decode]
  exact commandWord_fields w

end Sys2Proof
end

section
/-! PROOFS. The statements about the encoding (spec/30_encoding.md sections 1 to 4). -/

namespace Sys2Proof

/-- Settles O1: a well-formed command's opcode lies in its own row only, so the decoder finds the row again. -/
theorem decodeOfEncode : Obligations.DecodeOfEncode := fun _ h => decode_encode h

/-- Settles O2: every opcode lies in the row chosen for it, and the decoder keeps the opcode and the operands. -/
theorem encodeOfDecode : Obligations.EncodeOfDecode := fun w => ⟨decode_wellFormed w, encode_decode w⟩

/-- Settles O3: a word matches a row by its opcode, and the rows partition the opcodes. -/
theorem tableRowsPartitionTheCommandWords : Obligations.TableRowsPartitionTheCommandWords := by
  intro w row
  rw [matches_tableRow_iff, opcodeInRow_iff_eq_rowOfOpcode, rowOf_decode]

/-- Settles O4: each of the twelve words is the encoding of its command. -/
theorem sampleWordsDecode : Obligations.SampleWordsDecode :=
  ⟨decode_encode (i := .cfga 4096#64 5#64) rfl, decode_encode (i := .cfgp 16#64 37#64) rfl,
    decode_encode (i := .get 9#64 0xFFFFFFFFFFFFFFFF#64) rfl, decode_encode (i := .set 8#64 0x123456789A#64) rfl,
    decode_encode (i := .len 0xDEADBEEFDEADBEEF#64 0x0123456789ABCDEF#64) rfl, decode_encode (i := .pad 0#64 0#64) rfl,
    decode_encode (i := .cap 0#64 0#64) rfl, decode_encode (i := .loc 21#64 0#64) rfl,
    decode_encode (i := .rdc 1#64 0#64) rfl, decode_encode (i := .reserved00 0#64 0#64) rfl,
    decode_encode (i := .reserved0A 0x0A#8 0#64 0#64) rfl, decode_encode (i := .reserved80 0xFF#8 0#64 0#64) rfl⟩

end Sys2Proof
end

section
/-! SUPPORT. What a command can do to the state, said once for every command and every state: answer only, construct a
buffer, or write one element (spec/10_state.md rules R24 to R29, spec/60_exceptions.md rule R181). -/

namespace Sys2Proof.Machine

/-- The command `i` may take `s` to the state given. That a SET writes its element, and nothing else, is known where the
state is well-formed. -/
inductive Effect (s : State) : Instr → State → Prop where
  | answer (i : Instr) (r : ResponseWord) : Effect s i (appendResponse s r)
  | construct (lay : Layout) (L w : Word) (hw : 1 ≤ w.toNat ∧ w.toNat ≤ 64)
      (hcap : capacityCells lay L.toNat w.toNat ≤ s.maxCells) :
      Effect s (configureCommand lay L w) (answered (construct lay L w.toNat s) 0x00#8 0#64 0#64)
  | write (a b : Word) (m : Memory) (hc : s.configured = true) (ha : a.toNat < s.length.toNat)
      (hb : b.toNat < 2 ^ s.width) (hwrite : StateInv s → WritesElement s a.toNat b m) :
      Effect s (.set a b) (answered { s with cells := m } 0x00#8 0#64 0#64)

/-- A command that only answers has the effect of an answer. -/
theorem Effect.of_answered {s t : State} {st : BitVec 8} {d0 d1 : Word} {o : Host.Outcome State Fault Refusal}
    (ho : o = .next (answered s st d0 d1)) (h : o = .next t) (i : Instr) : Effect s i t := by
  obtain rfl := Host.Outcome.next.inj (ho.symm.trans h)
  exact .answer i _

/-- Construction answers an error or constructs the buffer (R150). -/
theorem configure_effect {lay : Layout} {L w : Word} {s t : State} (h : configure lay L w s = .next t) :
    Effect s (configureCommand lay L w) t := by
  obtain ⟨-, herr⟩ | ⟨-, -, herr⟩ | ⟨hw, hcap, hok⟩ := configure_cases lay L w s
  · exact .of_answered herr h _
  · exact .of_answered herr h _
  · obtain rfl := Host.Outcome.next.inj (hok.symm.trans h)
    exact .construct lay L w hw hcap

/-- SET answers an error or writes its element (R131). -/
theorem execSet_effect {a b : Word} {s t : State} (h : exec (.set a b) s = .next t) : Effect s (.set a b) t := by
  obtain ⟨-, herr⟩ | ⟨-, -, herr⟩ | ⟨-, -, -, herr⟩ | ⟨hc, ha, hb, ⟨u, hins, hok⟩ | ⟨f, hfault⟩⟩ := execSet_cases s a b
  · exact .of_answered herr h _
  · exact .of_answered herr h _
  · exact .of_answered herr h _
  · obtain ⟨m, rfl, -⟩ := insertAt_eq_ok hins
    obtain rfl := Host.Outcome.next.inj (hok.symm.trans h)
    refine .write a b m hc ha hb fun hs => ?_
    obtain ⟨m', hset, hwrite⟩ := execSet_writesElement hs.cells_canonical (hs.width_legal hc) hc ha hb
    have hcells : m' = m := congrArg State.cells (Host.Outcome.next.inj (hset.symm.trans h))
    exact hcells ▸ hwrite
  · cases hfault.symm.trans h

theorem exec_reading_effect {i : Instr} {a b : Word} (hi : Reading i a b) {s t : State} (h : exec i s = .next t) :
    Effect s i t := by
  obtain ⟨r, rfl⟩ := exec_reading_next hi h
  exact .answer i r

/-- Every command that has a next state has one of the three effects. -/
theorem exec_effect {i : Instr} {s t : State} (h : exec i s = .next t) : Effect s i t := by
  cases i with
  | cfga L w => exact configure_effect (lay := .aligned) h
  | cfgp L w => exact configure_effect (lay := .packed) h
  | get a b => exact exec_reading_effect (.inl rfl) h
  | set a b => exact execSet_effect h
  | len a b => exact exec_reading_effect (.inr (.inr (.inl rfl))) h
  | pad a b => exact exec_reading_effect (.inr (.inr (.inr (.inl rfl)))) h
  | cap a b => exact exec_reading_effect (.inr (.inr (.inr (.inr (.inl rfl))))) h
  | loc a b => exact exec_reading_effect (.inr (.inr (.inr (.inr (.inr rfl))))) h
  | rdc a b => exact exec_reading_effect (.inr (.inl rfl)) h
  | reserved00 | reserved0A | reserved0C | reserved10 | reserved20 | reserved40 | reserved80 =>
    exact .of_answered (exec_of_isReserved (by trivial) s) h _

/-- The state right after a reset: the unit is in its reset state, and `MAX_CELLS` and the ports are as given. -/
def resetKeeping (maxCells : Nat) (pending : List HostMove) (responses : List ResponseWord) : State :=
  { State.reset with maxCells := maxCells, pending := pending, responses := responses }

/-- What a step can do: nothing, with no move pending; reset the unit; or have the effect of the command presented. -/
inductive StepEffect (s : State) : State → Prop where
  | idle (hp : s.pending = []) : StepEffect s s
  | reset (m : HostMove) (rest : List HostMove) (hp : s.pending = m :: rest) :
      StepEffect s (resetKeeping s.maxCells rest s.responses)
  | command (w : CommandWord) (rest : List HostMove) (t : State) (hp : s.pending = .command w :: rest)
      (h : Effect { s with pending := rest } (decode w) t) : StepEffect s t

/-- Every step that has a next state has one of the three effects (R22, R198, R199). -/
theorem step_effect {s t : State} (h : step s = .next t) : StepEffect s t := by
  cases hp : s.pending with
  | nil =>
    obtain rfl := Host.Outcome.next.inj ((step_idle hp).symm.trans h)
    exact .idle hp
  | cons m rest =>
    cases m with
    | command w => exact .command w rest t hp (exec_effect ((step_command hp).symm.trans h))
    | reset =>
      obtain rfl := Host.Outcome.next.inj ((step_reset hp).symm.trans h)
      exact .reset _ rest hp
    | commandCutShort w =>
      obtain rfl := Host.Outcome.next.inj ((step_commandCutShort hp).symm.trans h)
      exact .reset _ rest hp

/-! ### What every command leaves -/

section Frame
variable {s t : State} {i : Instr}

/-- A command leaves `MAX_CELLS` and the moves pending, and adds one response (R9, R61). -/
theorem Effect.ports (h : Effect s i t) :
    t.maxCells = s.maxCells ∧ t.pending = s.pending ∧ ∃ r, t.responses = s.responses ++ [r] := by
  cases h with
  | answer i r => exact ⟨rfl, rfl, r, rfl⟩
  | construct lay L w hw hcap => exact ⟨rfl, rfl, _, rfl⟩
  | write a b m hc ha hb hwrite => exact ⟨rfl, rfl, _, rfl⟩

/-- No command unconfigures the unit (R24). -/
theorem Effect.configured (h : Effect s i t) (hc : s.configured = true) : t.configured = true := by
  cases h with
  | answer i r => exact hc
  | construct lay L w hw hcap => rfl
  | write a b m hc ha hb hwrite => exact hc

theorem opcodeOf_configureCommand (lay : Layout) (L w : Word) :
    opcodeOf (configureCommand lay L w) = 0x01#8 ∨ opcodeOf (configureCommand lay L w) = 0x02#8 := by
  cases lay with
  | aligned => exact .inl rfl
  | packed => exact .inr rfl

/-- Only CFGA and CFGP write the four registers (R24 to R27). -/
theorem Effect.registers (h : Effect s i t) (h1 : opcodeOf i ≠ 0x01#8) (h2 : opcodeOf i ≠ 0x02#8) :
    t.configured = s.configured ∧ t.layout = s.layout ∧ t.width = s.width ∧ t.length = s.length := by
  cases h with
  | answer i r => exact ⟨rfl, rfl, rfl, rfl⟩
  | construct lay L w hw hcap => exact absurd (opcodeOf_configureCommand lay L w) (not_or.2 ⟨h1, h2⟩)
  | write a b m hc ha hb hwrite => exact ⟨rfl, rfl, rfl, rfl⟩

/-- Only CFGA, CFGP and SET write cells (R29). -/
theorem Effect.cells (h : Effect s i t) (h1 : opcodeOf i ≠ 0x01#8) (h2 : opcodeOf i ≠ 0x02#8)
    (h4 : opcodeOf i ≠ 0x04#8) : t.cells = s.cells := by
  cases h with
  | answer i r => rfl
  | construct lay L w hw hcap => exact absurd (opcodeOf_configureCommand lay L w) (not_or.2 ⟨h1, h2⟩)
  | write a b m hc ha hb hwrite => exact absurd rfl h4

end Frame

/-! ### Well-formedness -/

/-- Every bit of a valid element stands at a bit number of a word, in a cell of the buffer (R42, R99). -/
theorem elementPlace_inside (lay : Layout) {L w i k : Nat} (hw : 1 ≤ w ∧ w ≤ 64) (hi : i < L) (hk : k < w) :
    (elementPlace lay w i k).1 < capacityCells lay L w ∧ (elementPlace lay w i k).2 < 64 := by
  have hfits := locate_fits (lay := lay) hw hi
  rw [← locationPlace_locate lay hw.2 hk]
  cases hloc : locate lay i w with
  | single cell off =>
    rw [hloc] at hfits
    obtain ⟨hcell, hend⟩ := hfits
    exact ⟨hcell, by simp only [locationPlace]; omega⟩
  | spanning lowCell lowBits highCell highBits =>
    rw [hloc] at hfits
    obtain ⟨hnext, hcell, hlow, -, hsum, hhigh⟩ := hfits
    simp only [locationPlace]
    split
    · exact ⟨by simp only []; omega, by simp only []; omega⟩
    · exact ⟨hcell, by simp only []; omega⟩

/-- A configured buffer whose unused bits are 0 has nothing at or above its capacity (R31). -/
theorem read_eq_zero_of_unused {s : State} (hw : 1 ≤ s.width ∧ s.width ≤ 64)
    (hunused : ∀ p : Nat × Nat, (∀ i, i < s.length.toNat → ¬ inRegion s.layout s.width i p) → cellBit s p = false)
    {c : Nat} (hc : capacityOf s ≤ c) : Memory.read s.cells c = 0#64 := by
  refine BitVec.eq_of_getLsbD_eq fun k _ => ?_
  rw [BitVec.getLsbD_zero]
  refine hunused (c, k) fun i hi ⟨l, hl, hp⟩ => ?_
  obtain ⟨hcell, -⟩ := elementPlace_inside s.layout hw hi hl
  rw [hp] at hcell
  exact absurd hc (Nat.not_le.2 hcell)

/-- Writing a valid element keeps well-formedness: the bits of no element are outside the region written (R31, R32). -/
theorem WritesElement.wellFormed {s : State} {i : Nat} {v : Word} {m : Memory} (hwrite : WritesElement s i v m)
    (hs : StateInv s) (hi : i < s.length.toNat) : StateInv { s with cells := m } := by
  have hunused (hc : s.configured = true) (p : Nat × Nat)
      (hp : ∀ j, j < s.length.toNat → ¬ inRegion s.layout s.width j p) : cellBit { s with cells := m } p = false :=
    (hwrite.outside p (hp i hi)).trans (hs.unused_zero hc p hp)
  exact ⟨hs.maxCells_legal, hwrite.canonical, hs.width_legal,
    fun hc _ => read_eq_zero_of_unused (s := { s with cells := m }) (hs.width_legal hc) (hunused hc),
    hs.capacity_fits, hunused⟩

/-- Every effect of a command keeps well-formedness (R32). -/
theorem Effect.wellFormed {s t : State} {i : Instr} (h : Effect s i t) (hs : StateInv s) : StateInv t := by
  cases h with
  | answer i r =>
    exact ⟨hs.maxCells_legal, hs.cells_canonical, hs.width_legal, hs.cells_inside, hs.capacity_fits, hs.unused_zero⟩
  | construct lay L w hw hcap => exact answered_wellFormed (construct_wellFormed hs hw hcap) _ _ _
  | write a b m hc ha hb hwrite => exact answered_wellFormed ((hwrite hs).wellFormed hs ha) _ _ _

/-- A unit without a buffer is well-formed as soon as its `MAX_CELLS` is legal (R31). -/
theorem resetKeeping_wellFormed {n : Nat} (hn : Config.minMaxCells ≤ n ∧ n ≤ Config.maxMaxCells)
    (ms : List HostMove) (rs : List ResponseWord) : StateInv (resetKeeping n ms rs) :=
  ⟨hn, Memory.reset_wf, nofun, nofun, nofun, nofun⟩

/-- Every step keeps well-formedness, a reset by leaving no buffer (R31, R32). -/
theorem step_wellFormed {s t : State} (hs : StateInv s) (h : step s = .next t) : StateInv t := by
  cases step_effect h with
  | idle hp => exact hs
  | reset m rest hp => exact resetKeeping_wellFormed hs.maxCells_legal rest s.responses
  | command w rest t hp heff => exact heff.wellFormed (wellFormed_withPending hs rest)

/-- From a well-formed state every step has a next state (R33, R100, R196). -/
theorem exists_step_next {s : State} (hs : StateInv s) : ∃ t, step s = .next t := by
  cases hp : s.pending with
  | nil => exact ⟨s, step_idle hp⟩
  | cons m rest =>
    cases m with
    | command w =>
      obtain ⟨t, r, hstep, -⟩ := statusOfEveryCommand s w rest hs hp
      exact ⟨t, hstep⟩
    | reset => exact ⟨_, step_reset hp⟩
    | commandCutShort w => exact ⟨_, step_commandCutShort hp⟩

end Sys2Proof.Machine
end

section
/-! PROOFS. The statements about steps and the registers (spec/10_state.md, spec/70_reset_and_hazards.md). -/

namespace Sys2Proof.Machine

/-- Settles O13, by what a step can do: an answer and a reset keep well-formedness, construction establishes it, and a SET
writes inside its element's region. -/
theorem stepKeepsTheStateWellFormed : Obligations.StepKeepsTheStateWellFormed := fun _ _ hs h => step_wellFormed hs h

/-- Settles O7, by what a step can do. -/
theorem stepTakesOneMoveAndKeepsMaxCells : Obligations.StepTakesOneMoveAndKeepsMaxCells := by
  intro s t h
  cases step_effect h with
  | idle hp => exact ⟨rfl, by rw [hp, List.tail_nil], [], by decide, (List.append_nil _).symm⟩
  | reset m rest hp => exact ⟨rfl, by rw [hp]; rfl, [], by decide, (List.append_nil _).symm⟩
  | command w rest t hp heff =>
    obtain ⟨hmax, hpend, r, hresp⟩ := heff.ports
    exact ⟨hmax, by rw [hpend, hp, List.tail_cons], [r], le_rfl, hresp⟩

/-- Settles O14: a step from a well-formed state has a next state, so it is no fault. -/
theorem noStepTouchesACellOutsideTheBuffer : Obligations.NoStepTouchesACellOutsideTheBuffer := by
  intro s hs
  obtain ⟨t, h⟩ := exists_step_next hs
  exact ⟨fun c hfault => (nomatch h.symm.trans hfault), t, h⟩

/-- Settles O15: the decoder keeps the opcode, and the effect of a command on the registers and cells is bound to its
opcode. -/
theorem onlyConfigurationWritesTheRegisters : Obligations.OnlyConfigurationWritesTheRegisters := by
  intro s t w rest hp h
  rw [step_command hp] at h
  have heff := exec_effect h
  rw [← opcodeOf_decode w]
  exact ⟨heff.registers, heff.cells, heff.configured⟩

/-- Settles O6: the decoder gives a well-formed command back. -/
theorem stepRunsTheDecodedCommand : Obligations.StepRunsTheDecodedCommand := by
  intro i s rest hwf hp
  rw [step_command hp, decode_encode hwf]

/-- Settles O10: both moves leave the unit in its reset state and touch no port. -/
theorem resetMoveUnconfiguresTheUnit : Obligations.ResetMoveUnconfiguresTheUnit := by
  rintro s m rest (rfl | ⟨w, rfl⟩) hp
  · exact ⟨_, step_reset hp, rfl, rfl, rfl, rfl⟩
  · exact ⟨_, step_commandCutShort hp, rfl, rfl, rfl, rfl⟩

/-- Settles O12: there is no buffer, and the reset value of `MAX_CELLS` is legal. -/
theorem resetStateIsWellFormed : Obligations.ResetStateIsWellFormed :=
  resetKeeping_wellFormed (n := Config.resetMaxCells) (by decide) [] []

/-- Settles O24: each reserved row raises IllegalCommand, whatever its opcode and operands. -/
theorem reservedCommandsComplete : Obligations.ReservedCommandsComplete := fun s op a b =>
  ⟨exec_of_isReserved (i := .reserved00 a b) trivial s, exec_of_isReserved (i := .reserved0A op a b) trivial s,
    exec_of_isReserved (i := .reserved0C op a b) trivial s, exec_of_isReserved (i := .reserved10 op a b) trivial s,
    exec_of_isReserved (i := .reserved20 op a b) trivial s, exec_of_isReserved (i := .reserved40 op a b) trivial s,
    exec_of_isReserved (i := .reserved80 op a b) trivial s⟩

/-- Settles O8, by induction over the words: the first step answers the first word with its status and leaves a
well-formed state, from which the rest runs. -/
theorem runAnswersEveryCommandInOrder : Obligations.RunAnswersEveryCommandInOrder := by
  intro s ws hs hp
  induction ws generalizing s with
  | nil =>
    refine ⟨[], rfl, fun k hk => ?_⟩
    obtain rfl : k = 0 := Nat.le_zero.1 hk
    exact ⟨s, run_zero s, hs, hp, (List.append_nil _).symm, by simp⟩
  | cons w ws ih =>
    obtain ⟨t, r, hstep, hpend, hresp, hstatus, -⟩ := statusOfEveryCommand s w _ hs hp
    obtain ⟨rs, hlen, hrun⟩ := ih t (step_wellFormed hs hstep) hpend
    refine ⟨r :: rs, congrArg (· + 1) hlen, fun k hk => ?_⟩
    cases k with
    | zero =>
      refine ⟨s, run_zero s, hs, hp, (List.append_nil _).symm, fun w' r' hw' hr' => ?_⟩
      obtain rfl := Option.some.inj hw'
      obtain rfl := Option.some.inj hr'
      exact hstatus
    | succ k =>
      obtain ⟨u, hu, hinv, hpend', hresp', hanswer⟩ := hrun k (Nat.le_of_succ_le_succ hk)
      refine ⟨u, (run_succ_of_next hstep k).trans hu, hinv, hpend', ?_, fun w' r' hw' hr' => hanswer w' r' hw' hr'⟩
      rw [hresp', hresp, List.append_assoc]
      rfl

end Sys2Proof.Machine
end

section
/-! SUPPORT. What the host can tell: a unit without a buffer behaves by its ports and `MAX_CELLS` alone
(spec/10_state.md rules R24, R35). -/

namespace Sys2Proof.Machine

/-- What two states have in common that the host sees without a buffer. -/
structure SamePorts (s t : State) : Prop where
  maxCells_eq : s.maxCells = t.maxCells
  pending_eq : s.pending = t.pending
  responses_eq : s.responses = t.responses

/-- Two units without a buffer, alike at their ports. -/
structure BothUnconfigured (s t : State) : Prop extends SamePorts s t where
  left_unconfigured : s.configured = false
  right_unconfigured : t.configured = false

/-- The host cannot tell two states apart exactly when they are one state or two units without a buffer. -/
theorem hostCannotTell_iff (s t : State) : hostCannotTell s t ↔ s = t ∨ BothUnconfigured s t := by
  constructor
  · rintro ⟨hmax, hpend, hresp, hconf, hbuf⟩
    cases hc : s.configured with
    | false => exact .inr ⟨⟨hmax, hpend, hresp⟩, hc, hconf.symm.trans hc⟩
    | true =>
      obtain ⟨hlay, hw, hL, hcells⟩ := hbuf hc
      cases s
      cases t
      cases hmax; cases hpend; cases hresp; cases hconf; cases hlay; cases hw; cases hL; cases hcells
      exact .inl rfl
  · rintro (rfl | h)
    · exact ⟨rfl, rfl, rfl, rfl, fun _ => ⟨rfl, rfl, rfl, rfl⟩⟩
    · exact ⟨h.maxCells_eq, h.pending_eq, h.responses_eq, h.left_unconfigured.trans h.right_unconfigured.symm,
        fun hc => absurd (hc.symm.trans h.left_unconfigured) (by decide)⟩

/-- Two units without a buffer that give the same answer stay alike. -/
theorem BothUnconfigured.answered {s t : State} (h : BothUnconfigured s t) (st : BitVec 8) (d0 d1 : Word) :
    BothUnconfigured (answered s st d0 d1) (answered t st d0 d1) :=
  ⟨⟨h.maxCells_eq, h.pending_eq, by rw [answered_responses, answered_responses, h.responses_eq]⟩,
    h.left_unconfigured, h.right_unconfigured⟩

/-- A configuration, a reserved command, or a command that needs a buffer: there is no other. -/
theorem configure_or_reserved_or_needsBuffer (i : Instr) :
    (∃ lay L w, i = configureCommand lay L w) ∨ IsReserved i ∨ NeedsBuffer i := by
  cases i with
  | cfga L w => exact .inl ⟨.aligned, L, w, rfl⟩
  | cfgp L w => exact .inl ⟨.packed, L, w, rfl⟩
  | get a b | set a b | len a b | pad a b | cap a b | loc a b | rdc a b => exact .inr (.inr ⟨a, b, by simp⟩)
  | reserved00 | reserved0A | reserved0C | reserved10 | reserved20 | reserved40 | reserved80 =>
    exact .inr (.inl trivial)

/-- Two units without a buffer that execute the same command come to states the host cannot tell apart: construction
discards what they held, and every other command is answered with the same error (R35, R153, R176). -/
theorem BothUnconfigured.exec {s t : State} (h : BothUnconfigured s t) (i : Instr) :
    ∃ s' t', exec i s = .next s' ∧ exec i t = .next t' ∧ hostCannotTell s' t' := by
  simp only [hostCannotTell_iff]
  obtain ⟨lay, L, w, rfl⟩ | hres | hneeds := configure_or_reserved_or_needsBuffer i
  · rw [exec_configureCommand, exec_configureCommand]
    obtain ⟨u, hs, ht, -⟩ | ⟨e, -, hs, ht⟩ :=
      configure_discards h.maxCells_eq h.pending_eq h.responses_eq lay L w
    · exact ⟨u, u, hs, ht, .inl rfl⟩
    · exact ⟨_, _, hs, ht, .inr (h.answered e _ _)⟩
  · exact ⟨_, _, exec_of_isReserved hres s, exec_of_isReserved hres t, .inr (h.answered _ _ _)⟩
  · exact ⟨_, _, exec_of_not_configured h.left_unconfigured hneeds, exec_of_not_configured h.right_unconfigured hneeds,
      .inr (h.answered _ _ _)⟩

/-- A step of two units without a buffer, alike at their ports. -/
theorem BothUnconfigured.step {s t : State} (h : BothUnconfigured s t) :
    ∃ s' t', step s = .next s' ∧ step t = .next t' ∧ hostCannotTell s' t' := by
  have hreset (rest : List HostMove) :
      hostCannotTell (resetKeeping s.maxCells rest s.responses) (resetKeeping t.maxCells rest t.responses) := by
    rw [h.maxCells_eq, h.responses_eq, hostCannotTell_iff]
    exact .inl rfl
  cases hs : s.pending with
  | nil =>
    exact ⟨s, t, step_idle hs, step_idle (h.pending_eq ▸ hs), (hostCannotTell_iff s t).2 (.inr h)⟩
  | cons m rest =>
    have ht : t.pending = m :: rest := h.pending_eq ▸ hs
    cases m with
    | reset => exact ⟨_, _, step_reset hs, step_reset ht, hreset rest⟩
    | commandCutShort w => exact ⟨_, _, step_commandCutShort hs, step_commandCutShort ht, hreset rest⟩
    | command w =>
      rw [step_command hs, step_command ht]
      have htaken : BothUnconfigured { s with pending := rest } { t with pending := rest } :=
        ⟨⟨h.maxCells_eq, rfl, h.responses_eq⟩, h.left_unconfigured, h.right_unconfigured⟩
      exact htaken.exec (decode w)

/-- A step keeps what the host cannot tell. -/
theorem hostCannotTell.step {s t s' : State} (h : hostCannotTell s t) (hstep : step s = .next s') :
    ∃ t', step t = .next t' ∧ hostCannotTell s' t' := by
  obtain rfl | hun := (hostCannotTell_iff s t).1 h
  · exact ⟨s', hstep, (hostCannotTell_iff s' s').2 (.inl rfl)⟩
  · obtain ⟨s'', t', hs, ht, h'⟩ := hun.step
    obtain rfl := Host.Outcome.next.inj (hs.symm.trans hstep)
    exact ⟨t', ht, h'⟩

end Sys2Proof.Machine
end

section
/-! SUPPORT. Rebuilding a buffer: after the configuration and the first SETs, the elements set so far are those of the
stored buffer, and once all are set so is every cell (spec/20_memory.md rule R44). -/

namespace Sys2Proof.Machine

/-- The unit `t` has the registers of `s`, and its elements below `n` hold what those of `s` hold. -/
structure RebuiltUpTo (s t : State) (n : Nat) : Prop where
  wellFormed : StateInv t
  configured : t.configured = true
  layout_eq : t.layout = s.layout
  width_eq : t.width = s.width
  length_eq : t.length = s.length
  elements : ∀ i k, i < n → k < s.width → elementBit t i k = elementBit s i k

/-- The SETs that rebuild the elements from index `n` on, as moves of the host. -/
def rebuildMoves (n : Nat) (values : List Word) : List HostMove :=
  (values.zipIdx n).map fun p => .command (encode (.set (BitVec.ofNat 64 p.2) p.1))

theorem rebuildMoves_cons (n : Nat) (v : Word) (values : List Word) :
    rebuildMoves n (v :: values) = .command (encode (.set (BitVec.ofNat 64 n) v)) :: rebuildMoves (n + 1) values := rfl

/-- The moves that rebuild a buffer: its configuration, then its elements in increasing index (R44). -/
theorem rebuildCommands_eq (lay : Layout) (width : Word) (values : List Word) :
    (rebuildCommands lay width values).map (fun i => HostMove.command (encode i)) =
      .command (encode (configureCommand lay (BitVec.ofNat 64 values.length) width)) :: rebuildMoves 0 values := by
  cases lay <;>
    simp only [rebuildCommands, rebuildMoves, configureCommand, List.map_cons, List.map_map, Function.comp_def]

/-- The SET of the next element rebuilds it and leaves those before it (R44, R131, R133). -/
theorem RebuiltUpTo.step {s t : State} {n : Nat} {v : Word} {rest : List HostMove} (h : RebuiltUpTo s t n)
    (hn : n < s.length.toNat) (hv : elementHolds s n v)
    (hp : t.pending = .command (encode (.set (BitVec.ofNat 64 n) v)) :: rest) :
    ∃ u, step t = .next u ∧ RebuiltUpTo s u (n + 1) ∧ u.pending = rest := by
  have hidx : (BitVec.ofNat 64 n).toNat = n := Nat.mod_eq_of_lt (hn.trans s.length.isLt)
  have hw := h.wellFormed.width_legal h.configured
  have hinv := wellFormed_withPending h.wellFormed rest
  have hin : (BitVec.ofNat 64 n).toNat < t.length.toNat := by rwa [hidx, h.length_eq]
  have hfit : v.toNat < 2 ^ t.width := h.width_eq ▸ elementHolds_lt hv
  obtain ⟨m, hset, hwrite⟩ :=
    execSet_writesElement (s := { t with pending := rest }) hinv.cells_canonical hw h.configured hin hfit
  rw [hidx] at hwrite
  have hstep : Machine.step t = .next (answered { t with pending := rest, cells := m } 0x00#8 0#64 0#64) := by
    rw [step_command hp, decode_encode rfl, hset]
  refine ⟨_, hstep, ⟨step_wellFormed h.wellFormed hstep, h.configured, h.layout_eq, h.width_eq, h.length_eq,
    fun i k hi hk => ?_⟩, rfl⟩
  have hkt : k < t.width := h.width_eq.symm ▸ hk
  by_cases hin' : i = n
  · subst hin'
    have hbit : v.getLsbD k = elementBit s i k := by
      rw [hv k (by omega), decide_eq_true hk, Bool.true_and]
    exact (hwrite.inside k hkt).trans hbit
  · exact (hwrite.other hin' hkt).trans (h.elements i k (by omega) hk)

/-- The SETs of all elements still missing rebuild them, one step each. -/
theorem RebuiltUpTo.run {s : State} (values : List Word) {t : State} {n : Nat} (h : RebuiltUpTo s t n)
    (hlen : n + values.length = s.length.toNat)
    (hvalues : ∀ i v, values[i]? = some v → elementHolds s (n + i) v) (hp : t.pending = rebuildMoves n values) :
    ∃ u, Host.Core.run Sys2Proof.core values.length t = .next u ∧ RebuiltUpTo s u s.length.toNat := by
  induction values generalizing t n with
  | nil =>
    obtain rfl : n = s.length.toNat := hlen
    exact ⟨t, run_zero t, h⟩
  | cons v values ih =>
    rw [List.length_cons] at hlen ⊢
    obtain ⟨u, hstep, hu, hpend⟩ := h.step (by omega) (hvalues 0 v rfl) (hp.trans (rebuildMoves_cons n v values))
    obtain ⟨u', hrun, hall⟩ := ih hu (by omega)
      (fun i x hx => by rw [Nat.add_right_comm]; exact hvalues (i + 1) x hx) hpend
    exact ⟨u', (run_succ_of_next hstep _).trans hrun, hall⟩

/-- Once all elements are rebuilt the cells are the same data, because every other bit of a buffer is 0 (R31, R44). -/
theorem RebuiltUpTo.cells_eq {s t : State} (h : RebuiltUpTo s t s.length.toNat) (hs : StateInv s)
    (hc : s.configured = true) : t.cells = s.cells := by
  refine cells_eq_of_cellBit (s := s) h.wellFormed.cells_canonical hs.cells_canonical fun p => ?_
  by_cases hp : ∃ i, i < s.length.toNat ∧ inRegion s.layout s.width i p
  · obtain ⟨i, hi, k, hk, rfl⟩ := hp
    have hbit := h.elements i k hi hk
    rw [elementBit, h.layout_eq, h.width_eq] at hbit
    exact hbit
  · have hnone : ∀ i, i < s.length.toNat → ¬ inRegion s.layout s.width i p := fun i hi hr => hp ⟨i, hi, hr⟩
    have ht : cellBit t p = false := h.wellFormed.unused_zero h.configured p (by
      rwa [h.layout_eq, h.width_eq, h.length_eq])
    exact ht.trans (hs.unused_zero hc p hnone).symm

/-- The configuration of the stored buffer succeeds and leaves its registers, with no element rebuilt yet (R44). -/
theorem exists_rebuiltUpTo_zero {s u : State} (hs : StateInv s) (hc : s.configured = true) (hu : StateInv u)
    (hmax : u.maxCells = s.maxCells) {rest : List HostMove}
    (hp : u.pending = .command (encode (configureCommand s.layout s.length (BitVec.ofNat 64 s.width))) :: rest) :
    ∃ t, step u = .next t ∧ RebuiltUpTo s t 0 ∧ t.pending = rest := by
  have hw := hs.width_legal hc
  have hwidth : (BitVec.ofNat 64 s.width).toNat = s.width := Nat.mod_eq_of_lt (by omega)
  have hfits : capacityCells s.layout s.length.toNat (BitVec.ofNat 64 s.width).toNat ≤ u.maxCells := by
    rw [hwidth, hmax]
    exact hs.capacity_fits hc
  have hwf : (configureCommand s.layout s.length (BitVec.ofNat 64 s.width)).wellFormed = true := by
    cases s.layout <;> rfl
  have hstep := step_command hp
  rw [decode_encode hwf, exec_configureCommand,
    configure_of_fits (s := { u with pending := rest }) (hwidth.symm ▸ hw) hfits] at hstep
  exact ⟨_, hstep, ⟨step_wellFormed hu hstep, rfl, rfl, hwidth, rfl, fun i k hi => absurd hi (Nat.not_lt_zero i)⟩, rfl⟩

end Sys2Proof.Machine
end

section
/-! PROOFS. The statements about whole runs (spec/10_state.md sections 3 and 6, spec/20_memory.md section 2). -/

namespace Sys2Proof.Machine

/-- Settles O11, by induction over the run: each step keeps what the host cannot tell. -/
theorem unconfiguredRegistersAreUnobservable : Obligations.UnconfiguredRegistersAreUnobservable := by
  intro n
  induction n with
  | zero =>
    intro s t s' h hrun
    obtain rfl := Host.Outcome.next.inj ((run_zero s).symm.trans hrun)
    exact ⟨t, run_zero t, h⟩
  | succ n ih =>
    intro s t s' h hrun
    obtain ⟨s₁, hstep, hrest⟩ := run_succ_inv hrun
    obtain ⟨t₁, hstep', h₁⟩ := h.step hstep
    rw [run_succ_of_next hstep']
    exact ih s₁ t₁ s' h₁ hrest

/-- Settles O50: the configuration gives the registers, each SET one more element, and the elements determine the
cells. -/
theorem rebuildRestoresTheBuffer : Obligations.RebuildRestoresTheBuffer := by
  intro s u values hs hc hlen hvalues hu hmax hp
  have hL : BitVec.ofNat 64 values.length = s.length := by rw [hlen, BitVec.ofNat_toNat, BitVec.setWidth_eq]
  rw [rebuildCommands_eq, hL] at hp
  obtain ⟨t, hstep, ht, hpend⟩ := exists_rebuiltUpTo_zero hs hc hu hmax hp
  obtain ⟨t', hrun, hall⟩ := ht.run values ((Nat.zero_add _).trans hlen)
    (fun i v hv => by rw [Nat.zero_add]; exact hvalues i v hv) hpend
  exact ⟨t', (run_succ_of_next hstep _).trans hrun, hall.configured, hall.layout_eq, hall.width_eq, hall.length_eq,
    hall.cells_eq hs hc⟩

end Sys2Proof.Machine
end

section
/-! SUPPORT. The cells of a Location: an access reads and writes no other, and of these only the element's bits
(spec/20_memory.md rule R46, spec/42_masked_word.md rules R116 to R119). -/

namespace Sys2Proof.Machine

/-! ### Reading -/

section Reads
variable {s s' : State} (hcap : capacityOf s' = capacityOf s)
include hcap

theorem cellRead_congr {c : Nat} (hread : Memory.read s'.cells c = Memory.read s.cells c) :
    cellRead s' c = cellRead s c := by
  simp only [cellRead, hcap, hread]

theorem maskedRead_congr {c : Nat} (hread : Memory.read s'.cells c = Memory.read s.cells c) (off n : Nat) :
    maskedRead s' c off n = maskedRead s c off n := by
  simp only [maskedRead, cellRead_congr hcap hread]

/-- Extraction reads the cells of its Location only (R46). -/
theorem extractAt_congr {l : Location} (hread : ∀ c ∈ locationCells l, Memory.read s'.cells c = Memory.read s.cells c)
    (w : Nat) : extractAt s' l w = extractAt s l w := by
  cases l with
  | single cell off => exact maskedRead_congr hcap (hread cell (by simp [locationCells])) off w
  | spanning lowCell lowBits highCell highBits =>
    have hlow := hread lowCell (by simp [locationCells])
    have hhigh := hread highCell (by simp [locationCells])
    simp only [extractAt, maskedRead_congr hcap hlow, maskedRead_congr hcap hhigh]

end Reads

/-- GET gives the same reply in two states that agree on the registers and on the cells of its Location (R137). -/
theorem execGet_sameReply {s s' : State} {a b : Word} (hconf : s'.configured = s.configured)
    (hlay : s'.layout = s.layout) (hwidth : s'.width = s.width) (hlen : s'.length = s.length)
    (hread : ∀ c ∈ locationCells (locate s.layout a.toNat s.width), Memory.read s'.cells c = Memory.read s.cells c) :
    SameReply s s' (exec (.get a b) s) (exec (.get a b) s') := by
  have hcap : capacityOf s' = capacityOf s := by simp only [capacityOf, hlay, hwidth, hlen]
  have hget (t : State) : exec (.get a b) t = execGet a b t := rfl
  simp only [hget, execGet, whenConfigured, IndexOutside, hconf, hlay, hwidth, hlen, extractAt_congr hcap hread]
  refine .ite (.ite (.answer _) ?_) (.answer _)
  cases extractAt s (locate s.layout a.toNat s.width) s.width with
  | ok v => exact .answer _
  | error f => exact .fault f

theorem length_locationCells_le (l : Location) : (locationCells l).length ≤ 2 := by
  cases l with
  | single cell off => exact Nat.le_succ 1
  | spanning lowCell lowBits highCell highBits => exact le_rfl

/-! ### Writing -/

/-- Every bit of a Location stands in one of its cells. -/
theorem locationPlace_mem_cells (l : Location) (k : Nat) : (locationPlace l k).1 ∈ locationCells l := by
  cases l with
  | single cell off => simp [locationPlace, locationCells]
  | spanning lowCell lowBits highCell highBits =>
    simp only [locationPlace, locationCells]
    split <;> simp

/-- The region of an element is the places of its Location (R42, R90). -/
theorem inRegion_iff_locationPlace (lay : Layout) {w : Nat} (hw : w ≤ 64) (i : Nat) (p : Nat × Nat) :
    inRegion lay w i p ↔ ∃ k, k < w ∧ locationPlace (locate lay i w) k = p :=
  exists_congr fun _ => and_congr_right fun hk => by rw [locationPlace_locate lay hw hk]

/-- A write of an element leaves every cell that is not of its Location (R119). -/
theorem WritesElement.read_outside {s : State} {i : Nat} {v : Word} {m : Memory} (h : WritesElement s i v m)
    (hw : s.width ≤ 64) {c : Nat} (hc : c ∉ locationCells (locate s.layout i s.width)) :
    Memory.read m c = Memory.read s.cells c := by
  refine BitVec.eq_of_getLsbD_eq fun k _ => h.outside (c, k) fun hr => hc ?_
  obtain ⟨l, -, hl⟩ := (inRegion_iff_locationPlace s.layout hw i _).1 hr
  have hmem := locationPlace_mem_cells (locate s.layout i s.width) l
  rwa [hl] at hmem

/-- SET only answers, or it writes its element (R131). -/
theorem Effect.of_set {s t : State} {a b : Word} (h : Effect s (.set a b) t) (hs : StateInv s) :
    (∃ r, t = appendResponse s r) ∨
      (s.configured = true ∧ ∃ m, t = answered { s with cells := m } 0x00#8 0#64 0#64 ∧ WritesElement s a.toNat b m) := by
  generalize hi : Instr.set a b = i at h
  cases h with
  | answer i r => exact .inl ⟨r, rfl⟩
  | construct lay L w hw hcap => cases lay <;> cases hi
  | write a' b' m hc ha hb hwrite =>
    cases hi
    exact .inr ⟨hc, m, rfl, hwrite hs⟩

/-- The state `t` has, in the cells of the Location, all bits of `s` but those of an element of `w` bits there (R119). -/
def SameOutsideField (s t : State) (w : Nat) : Location → Prop
  | .single cell off => ∀ k : Nat, k < off ∨ off + w ≤ k → cellBit t (cell, k) = cellBit s (cell, k)
  | .spanning lowCell lowBits highCell highBits =>
    (∀ k : Nat, k < 64 - lowBits → cellBit t (lowCell, k) = cellBit s (lowCell, k)) ∧
      ∀ k : Nat, highBits ≤ k → cellBit t (highCell, k) = cellBit s (highCell, k)

theorem SameOutsideField.refl (s : State) (w : Nat) (l : Location) : SameOutsideField s s w l := by
  cases l with
  | single cell off => exact fun _ _ => rfl
  | spanning lowCell lowBits highCell highBits => exact ⟨fun _ _ => rfl, fun _ _ => rfl⟩

/-- A write of an element changes only the element's bits in the cells of its Location (R119). -/
theorem WritesElement.sameOutsideField {s : State} {i : Nat} {v : Word} {m : Memory} (h : WritesElement s i v m)
    (hw : 1 ≤ s.width ∧ s.width ≤ 64) :
    SameOutsideField s { s with cells := m } s.width (locate s.layout i s.width) := by
  have hfits := locate_fits (lay := s.layout) hw (Nat.lt_succ_self i)
  have hout (p : Nat × Nat) (hp : ∀ k, k < s.width → locationPlace (locate s.layout i s.width) k ≠ p) :
      cellBit { s with cells := m } p = cellBit s p :=
    h.outside p fun hr => by
      obtain ⟨k, hk, hkp⟩ := (inRegion_iff_locationPlace s.layout hw.2 i p).1 hr
      exact hp k hk hkp
  generalize locate s.layout i s.width = l at hfits hout ⊢
  cases l with
  | single cell off =>
    refine fun k hk => hout _ fun l hl hp => ?_
    obtain ⟨-, hbit⟩ := Prod.mk.inj hp
    omega
  | spanning lowCell lowBits highCell highBits =>
    obtain ⟨hnext, -, -, -, hsum, -⟩ := hfits
    refine ⟨fun k hk => hout _ fun l hl hp => ?_, fun k hk => hout _ fun l hl hp => ?_⟩
    · simp only [locationPlace] at hp
      split at hp <;> obtain ⟨hcell, hbit⟩ := Prod.mk.inj hp <;> omega
    · simp only [locationPlace] at hp
      split at hp <;> obtain ⟨hcell, hbit⟩ := Prod.mk.inj hp <;> omega

end Sys2Proof.Machine
end

section
/-! PROOFS. The statements about GET, SET and where elements lie (spec/20_memory.md, spec/42_masked_word.md,
spec/43_extract_insert.md). -/

namespace Sys2Proof.Machine

/-- Settles O45: the Location places each bit as the closed form does, and every bit of an element is inside its cell. -/
theorem locationIsTheClosedForm : Obligations.LocationIsTheClosedForm := by
  intro lay w i k h1 h64 hk
  obtain ⟨-, hbit⟩ := elementPlace_inside lay ⟨h1, h64⟩ (Nat.lt_succ_self i) hk
  exact ⟨locationPlace_locate lay h64 hk, hbit⟩

/-- Settles O32: the two checks in order, then the bits that extraction reads at the element's place. -/
theorem getAnswersTheElement : Obligations.GetAnswersTheElement := fun _ a b hs =>
  ⟨opcodeField_encode (.get a b), fun hc => whenConfigured_of_false hc _,
    fun hc ha => whenConfigured_firstCheck hc ha .indexOutOfBounds _,
    fun hc ha => execGet_elementHolds (hs.width_legal hc) hc ha b⟩

/-- Settles O34: the three checks in order, then the write of the element. -/
theorem setWritesExactlyItsRegion : Obligations.SetWritesExactlyItsRegion := by
  intro s a b hs
  refine ⟨opcodeField_encode (.set a b), fun hc => whenConfigured_of_false hc _,
    fun hc ha => whenConfigured_firstCheck hc ha .indexOutOfBounds _,
    fun hc ha hb => execSet_of_valueTooWide hc ha hb, fun hc ha hb => ?_⟩
  obtain ⟨m, hset, hwrite⟩ := execSet_writesElement hs.cells_canonical (hs.width_legal hc) hc ha hb
  exact ⟨_, hset, rfl, hwrite.canonical, hwrite.inside, hwrite.outside⟩

/-- Settles O35: a SET that only answers changes no cell, and one that succeeds writes its element. -/
theorem setFrameAtItsLocation : Obligations.SetFrameAtItsLocation := by
  intro s t a b hs h
  have heff := exec_effect h
  obtain ⟨hmax, hpend, -⟩ := heff.ports
  obtain ⟨hconf, hlay, hwidth, hlen⟩ := heff.registers (by simp [opcodeOf]) (by simp [opcodeOf])
  have hcells : (∀ c, c ∉ locationCells (locate s.layout a.toNat s.width) →
        Memory.read t.cells c = Memory.read s.cells c) ∧
      SameOutsideField s t s.width (locate s.layout a.toNat s.width) := by
    obtain ⟨r, rfl⟩ | ⟨hc, m, rfl, hwrite⟩ := heff.of_set hs
    · exact ⟨fun _ _ => rfl, .refl s _ _⟩
    · exact ⟨fun c => hwrite.read_outside (hs.width_legal hc).2, hwrite.sameOutsideField (hs.width_legal hc)⟩
  obtain ⟨houtside, hfield⟩ := hcells
  refine ⟨houtside, fun _ _ => ?_, hconf, hlay, hwidth, hlen, hmax, hpend⟩
  cases hloc : locate s.layout a.toNat s.width with
  | single cell off => exact hloc ▸ hfield
  | spanning lowCell lowBits highCell highBits => exact hloc ▸ hfield

/-- Settles O36: GET reads the registers and the cells of its Location only, so its reply is the same. -/
theorem getDependsOnItsLocationOnly : Obligations.GetDependsOnItsLocationOnly := by
  intro s s' a b status v hconf hlay hwidth hlen hread
  refine ⟨length_locationCells_le _, fun h => by rw [h]; rfl, fun h => ?_⟩
  obtain ⟨r, hr, h'⟩ := (execGet_sameReply (b := b) hconf hlay hwidth hlen hread).of_next h
  obtain rfl : status ++ v ++ 0#64 = r := appendResponse_inj hr
  exact h'

end Sys2Proof.Machine
end

section
/-! SUPPORT. The byte image: blocks of one length, one after another (spec/20_memory.md rule R43). -/

namespace Sys2Proof.Machine

section Blocks
variable {α : Type} {size : Nat} {block : Nat → List α} (hsize : ∀ c, (block c).length = size)
include hsize

theorem length_flatMap_range (n : Nat) : ((List.range n).flatMap block).length = size * n := by
  induction n with
  | zero => rfl
  | succ n ih =>
    rw [List.range_succ, List.flatMap_append, List.length_append, ih, List.flatMap_singleton, hsize, Nat.mul_succ]

/-- An entry of one block stands after all blocks before it. -/
theorem getElem?_flatMap_range {n c j : Nat} (hc : c < n) (hj : j < size) :
    ((List.range n).flatMap block)[size * c + j]? = (block c)[j]? := by
  induction n with
  | zero => omega
  | succ n ih =>
    have hlen := length_flatMap_range hsize n
    rw [List.range_succ, List.flatMap_append, List.flatMap_singleton]
    by_cases hcn : c = n
    · subst hcn
      rw [List.getElem?_append_right (by omega), hlen, Nat.add_sub_cancel_left]
    · have hbefore : size * (c + 1) ≤ size * n := Nat.mul_le_mul_left size (by omega)
      rw [Nat.mul_succ] at hbefore
      rw [List.getElem?_append_left (by omega), ih (by omega)]

end Blocks

theorem length_cellBytes (x : Word) : (cellBytes x).length = 8 := by
  rw [cellBytes, List.length_map, List.length_range]

/-- Byte `j` of a cell is its bits `8j` to `8j + 7` (R43). -/
theorem getElem?_cellBytes (x : Word) {j : Nat} (hj : j < 8) : (cellBytes x)[j]? = some (x.extractLsb' (8 * j) 8) := by
  rw [cellBytes, List.getElem?_map, List.getElem?_range hj, Option.map_some]

end Sys2Proof.Machine
end

section
/-! PROOFS. The statements about what stands outside the unit (spec/20_memory.md rule R43, spec/30_encoding.md rule
R70). -/

namespace Sys2Proof.Machine

/-- Settles O49: the image is blocks of 8 bytes, one a cell. -/
theorem cellImageIsLittleEndian : Obligations.CellImageIsLittleEndian := by
  intro s
  have hsize (c : Nat) : (cellBytes (Memory.read s.cells c)).length = 8 := length_cellBytes _
  refine ⟨length_flatMap_range hsize _, fun c j hc hj => ?_⟩
  rw [cellImage, getElem?_flatMap_range hsize hc hj, getElem?_cellBytes _ hj]

/-- Settles O48: each text is assembled by evaluation. -/
theorem assembledLinesAreTheirWords : Obligations.AssembledLinesAreTheirWords := by
  refine ⟨?_, ?_, ?_, ?_, ?_, ?_, ?_⟩
  all_goals decide

end Sys2Proof.Machine
end
